-- ==== Sys2Proof/Word.lean ====
section
/-! DEFINITION. The widths the spec gives its quantities (spec/00_scope.md R6, R9, R10). -/

namespace Sys2Proof

/-- An 8-bit byte: a register `V[i]`, a memory byte, a timer, an `NN` field. -/
abbrev Byte := BitVec 8

/-- A 16-bit word: an opcode, `I`, `PC`, a stack entry. -/
abbrev Word := BitVec 16

/-- A 4-bit field: `X`, `Y` (register numbers), `N` (row count), a key number. -/
abbrev Nibble := BitVec 4

/-- A 12-bit field: `NNN`, an absolute address. -/
abbrev Addr := BitVec 12

end Sys2Proof
end

