-- ==== Sys2Proof/Syntax.lean ====
section
/-! DEFINITION. The 34 instructions (spec/30_encoding.md R95), their names, and their rows of the opcode map. -/

namespace Sys2Proof

/-- One constructor per row of the opcode map, with the row's fields: `x`, `y` register numbers, `nn` a byte,
`nnn` an absolute address, `n` a row count (R92, R93). -/
inductive Instr where
  | cls
  | ret
  | jp (nnn : Addr)
  | call (nnn : Addr)
  | seImm (x : Nibble) (nn : Byte)
  | sneImm (x : Nibble) (nn : Byte)
  | seReg (x y : Nibble)
  | ldImm (x : Nibble) (nn : Byte)
  | addImm (x : Nibble) (nn : Byte)
  | ldReg (x y : Nibble)
  | or (x y : Nibble)
  | and (x y : Nibble)
  | xor (x y : Nibble)
  | addReg (x y : Nibble)
  | sub (x y : Nibble)
  | shr (x y : Nibble)
  | subn (x y : Nibble)
  | shl (x y : Nibble)
  | sneReg (x y : Nibble)
  | ldI (nnn : Addr)
  | jpV0 (nnn : Addr)
  | rnd (x : Nibble) (nn : Byte)
  | drw (x y n : Nibble)
  | skp (x : Nibble)
  | sknp (x : Nibble)
  | ldVxDt (x : Nibble)
  | ldVxK (x : Nibble)
  | ldDtVx (x : Nibble)
  | ldStVx (x : Nibble)
  | addI (x : Nibble)
  | ldF (x : Nibble)
  | ldB (x : Nibble)
  | stRegs (x : Nibble)
  | ldRegs (x : Nibble)
  deriving DecidableEq, Repr

/-- The name of a row of the opcode map, without its fields. -/
inductive Op where
  | cls | ret | jp | call | seImm | sneImm | seReg | ldImm | addImm | ldReg | or | and | xor | addReg | sub | shr | subn
  | shl | sneReg | ldI | jpV0 | rnd | drw | skp | sknp | ldVxDt | ldVxK | ldDtVx | ldStVx | addI | ldF | ldB | stRegs
  | ldRegs
  deriving DecidableEq, Repr

/-- The row an instruction belongs to. -/
def Instr.op : Instr → Op
  | .cls => .cls
  | .ret => .ret
  | .jp _ => .jp
  | .call _ => .call
  | .seImm _ _ => .seImm
  | .sneImm _ _ => .sneImm
  | .seReg _ _ => .seReg
  | .ldImm _ _ => .ldImm
  | .addImm _ _ => .addImm
  | .ldReg _ _ => .ldReg
  | .or _ _ => .or
  | .and _ _ => .and
  | .xor _ _ => .xor
  | .addReg _ _ => .addReg
  | .sub _ _ => .sub
  | .shr _ _ => .shr
  | .subn _ _ => .subn
  | .shl _ _ => .shl
  | .sneReg _ _ => .sneReg
  | .ldI _ => .ldI
  | .jpV0 _ => .jpV0
  | .rnd _ _ => .rnd
  | .drw _ _ _ => .drw
  | .skp _ => .skp
  | .sknp _ => .sknp
  | .ldVxDt _ => .ldVxDt
  | .ldVxK _ => .ldVxK
  | .ldDtVx _ => .ldDtVx
  | .ldStVx _ => .ldStVx
  | .addI _ => .addI
  | .ldF _ => .ldF
  | .ldB _ => .ldB
  | .stRegs _ => .stRegs
  | .ldRegs _ => .ldRegs

/-- Every row, in the order of the opcode map. -/
def Op.all : List Op :=
  [.cls, .ret, .jp, .call, .seImm, .sneImm, .seReg, .ldImm, .addImm, .ldReg, .or, .and, .xor, .addReg, .sub, .shr, .subn]
    ++ [.shl, .sneReg, .ldI, .jpV0, .rnd, .drw, .skp, .sknp, .ldVxDt, .ldVxK, .ldDtVx, .ldStVx, .addI, .ldF, .ldB, .stRegs,
      .ldRegs]

/-- The `mask` and `match` columns of R95. -/
structure Row where
  mask : Word
  pattern : Word
  deriving DecidableEq, Repr

/-- The row of the opcode map, as R95 prints it. -/
def Op.row : Op → Row
  | .cls => ⟨0xFFFF, 0x00E0⟩
  | .ret => ⟨0xFFFF, 0x00EE⟩
  | .jp => ⟨0xF000, 0x1000⟩
  | .call => ⟨0xF000, 0x2000⟩
  | .seImm => ⟨0xF000, 0x3000⟩
  | .sneImm => ⟨0xF000, 0x4000⟩
  | .seReg => ⟨0xF00F, 0x5000⟩
  | .ldImm => ⟨0xF000, 0x6000⟩
  | .addImm => ⟨0xF000, 0x7000⟩
  | .ldReg => ⟨0xF00F, 0x8000⟩
  | .or => ⟨0xF00F, 0x8001⟩
  | .and => ⟨0xF00F, 0x8002⟩
  | .xor => ⟨0xF00F, 0x8003⟩
  | .addReg => ⟨0xF00F, 0x8004⟩
  | .sub => ⟨0xF00F, 0x8005⟩
  | .shr => ⟨0xF00F, 0x8006⟩
  | .subn => ⟨0xF00F, 0x8007⟩
  | .shl => ⟨0xF00F, 0x800E⟩
  | .sneReg => ⟨0xF00F, 0x9000⟩
  | .ldI => ⟨0xF000, 0xA000⟩
  | .jpV0 => ⟨0xF000, 0xB000⟩
  | .rnd => ⟨0xF000, 0xC000⟩
  | .drw => ⟨0xF000, 0xD000⟩
  | .skp => ⟨0xF0FF, 0xE09E⟩
  | .sknp => ⟨0xF0FF, 0xE0A1⟩
  | .ldVxDt => ⟨0xF0FF, 0xF007⟩
  | .ldVxK => ⟨0xF0FF, 0xF00A⟩
  | .ldDtVx => ⟨0xF0FF, 0xF015⟩
  | .ldStVx => ⟨0xF0FF, 0xF018⟩
  | .addI => ⟨0xF0FF, 0xF01E⟩
  | .ldF => ⟨0xF0FF, 0xF029⟩
  | .ldB => ⟨0xF0FF, 0xF033⟩
  | .stRegs => ⟨0xF0FF, 0xF055⟩
  | .ldRegs => ⟨0xF0FF, 0xF065⟩

/-- A row matches an opcode when `op & mask = match` (R94). -/
def Row.selects (r : Row) (op : Word) : Bool := op &&& r.mask == r.pattern

/-- Two rows could both match some opcode: they agree on every bit both masks fix. -/
def Row.overlaps (r q : Row) : Bool := (r.pattern ^^^ q.pattern) &&& (r.mask &&& q.mask) == 0

end Sys2Proof
end

