-- ==== Sys2Proof/WellFormed.lean ====
section
/-! DEFINITION. Well-formed assembly lines (spec/30_encoding.md R93, R100): the operand ranges, checked where a term can
break them. The fields of `Instr` have exactly the widths of R92, so an `Instr` itself cannot be ill-formed. -/

namespace Sys2Proof

/-- The kinds of operand of R100. -/
inductive OperandKind where
  | reg      -- `Vx`, `Vy`
  | addr     -- a 12-bit number
  | byte     -- an 8-bit number
  | nibble   -- a 4-bit number
  deriving DecidableEq, Repr

/-- The largest operand of each kind (R93). -/
def OperandKind.max : OperandKind → Nat
  | .reg => 15
  | .addr => 4095
  | .byte => 255
  | .nibble => 15

/-- The operands of each instruction as R100 writes them, fixed words (`I`, `V0`, `DT`, `ST`, `K`, `F`, `B`, `[I]`) left
out; `SHR Vx` and `SHL Vx` have one. -/
def Op.operands : Op → List OperandKind
  | .cls => []
  | .ret => []
  | .jp => [.addr]
  | .call => [.addr]
  | .seImm => [.reg, .byte]
  | .sneImm => [.reg, .byte]
  | .seReg => [.reg, .reg]
  | .ldImm => [.reg, .byte]
  | .addImm => [.reg, .byte]
  | .ldReg => [.reg, .reg]
  | .or => [.reg, .reg]
  | .and => [.reg, .reg]
  | .xor => [.reg, .reg]
  | .addReg => [.reg, .reg]
  | .sub => [.reg, .reg]
  | .shr => [.reg]
  | .subn => [.reg, .reg]
  | .shl => [.reg]
  | .sneReg => [.reg, .reg]
  | .ldI => [.addr]
  | .jpV0 => [.addr]
  | .rnd => [.reg, .byte]
  | .drw => [.reg, .reg, .nibble]
  | .skp => [.reg]
  | .sknp => [.reg]
  | .ldVxDt => [.reg]
  | .ldVxK => [.reg]
  | .ldDtVx => [.reg]
  | .ldStVx => [.reg]
  | .addI => [.reg]
  | .ldF => [.reg]
  | .ldB => [.reg]
  | .stRegs => [.reg]
  | .ldRegs => [.reg]

/-- R100's assembly form of each instruction. -/
def Op.assembly : Op → String
  | .cls => "CLS"
  | .ret => "RET"
  | .jp => "JP addr"
  | .call => "CALL addr"
  | .seImm => "SE Vx, byte"
  | .sneImm => "SNE Vx, byte"
  | .seReg => "SE Vx, Vy"
  | .ldImm => "LD Vx, byte"
  | .addImm => "ADD Vx, byte"
  | .ldReg => "LD Vx, Vy"
  | .or => "OR Vx, Vy"
  | .and => "AND Vx, Vy"
  | .xor => "XOR Vx, Vy"
  | .addReg => "ADD Vx, Vy"
  | .sub => "SUB Vx, Vy"
  | .shr => "SHR Vx"
  | .subn => "SUBN Vx, Vy"
  | .shl => "SHL Vx"
  | .sneReg => "SNE Vx, Vy"
  | .ldI => "LD I, addr"
  | .jpV0 => "JP V0, addr"
  | .rnd => "RND Vx, byte"
  | .drw => "DRW Vx, Vy, n"
  | .skp => "SKP Vx"
  | .sknp => "SKNP Vx"
  | .ldVxDt => "LD Vx, DT"
  | .ldVxK => "LD Vx, K"
  | .ldDtVx => "LD DT, Vx"
  | .ldStVx => "LD ST, Vx"
  | .addI => "ADD I, Vx"
  | .ldF => "LD F, Vx"
  | .ldB => "LD B, Vx"
  | .stRegs => "LD [I], Vx"
  | .ldRegs => "LD Vx, [I]"

/-- A line of assembly: an instruction and its operands as numbers. -/
structure AsmLine where
  op : Op
  args : List Nat
  deriving DecidableEq, Repr

/-- The right number of operands, each in its kind's range. -/
def operandsFit : List OperandKind → List Nat → Bool
  | [], [] => true
  | k :: ks, a :: as => decide (a ≤ k.max) && operandsFit ks as
  | _, _ => false

/-- A line is well-formed when its operands fit its instruction. -/
def AsmLine.wellFormed (l : AsmLine) : Bool := operandsFit l.op.operands l.args

/-- The line that R100 prints for an instruction; the unused `Y` of `8XY6` and `8XYE` is not printed. -/
def Instr.line : Instr → AsmLine
  | .cls => ⟨.cls, []⟩
  | .ret => ⟨.ret, []⟩
  | .jp nnn => ⟨.jp, [nnn.toNat]⟩
  | .call nnn => ⟨.call, [nnn.toNat]⟩
  | .seImm x nn => ⟨.seImm, [x.toNat, nn.toNat]⟩
  | .sneImm x nn => ⟨.sneImm, [x.toNat, nn.toNat]⟩
  | .seReg x y => ⟨.seReg, [x.toNat, y.toNat]⟩
  | .ldImm x nn => ⟨.ldImm, [x.toNat, nn.toNat]⟩
  | .addImm x nn => ⟨.addImm, [x.toNat, nn.toNat]⟩
  | .ldReg x y => ⟨.ldReg, [x.toNat, y.toNat]⟩
  | .or x y => ⟨.or, [x.toNat, y.toNat]⟩
  | .and x y => ⟨.and, [x.toNat, y.toNat]⟩
  | .xor x y => ⟨.xor, [x.toNat, y.toNat]⟩
  | .addReg x y => ⟨.addReg, [x.toNat, y.toNat]⟩
  | .sub x y => ⟨.sub, [x.toNat, y.toNat]⟩
  | .shr x _ => ⟨.shr, [x.toNat]⟩
  | .subn x y => ⟨.subn, [x.toNat, y.toNat]⟩
  | .shl x _ => ⟨.shl, [x.toNat]⟩
  | .sneReg x y => ⟨.sneReg, [x.toNat, y.toNat]⟩
  | .ldI nnn => ⟨.ldI, [nnn.toNat]⟩
  | .jpV0 nnn => ⟨.jpV0, [nnn.toNat]⟩
  | .rnd x nn => ⟨.rnd, [x.toNat, nn.toNat]⟩
  | .drw x y n => ⟨.drw, [x.toNat, y.toNat, n.toNat]⟩
  | .skp x => ⟨.skp, [x.toNat]⟩
  | .sknp x => ⟨.sknp, [x.toNat]⟩
  | .ldVxDt x => ⟨.ldVxDt, [x.toNat]⟩
  | .ldVxK x => ⟨.ldVxK, [x.toNat]⟩
  | .ldDtVx x => ⟨.ldDtVx, [x.toNat]⟩
  | .ldStVx x => ⟨.ldStVx, [x.toNat]⟩
  | .addI x => ⟨.addI, [x.toNat]⟩
  | .ldF x => ⟨.ldF, [x.toNat]⟩
  | .ldB x => ⟨.ldB, [x.toNat]⟩
  | .stRegs x => ⟨.stRegs, [x.toNat]⟩
  | .ldRegs x => ⟨.ldRegs, [x.toNat]⟩

/-- A well-formed instruction: its operands are in the ranges of R93. -/
def Instr.wellFormed (i : Instr) : Bool := i.line.wellFormed

/-- The `k`-th operand of a line. -/
def AsmLine.arg (l : AsmLine) (k : Nat) : Nat := l.args.getD k 0

/-- The instruction of a well-formed line, `none` for an ill-formed one. `SHR Vx` and `SHL Vx` assemble with `Y` = 0 (R100). -/
def assemble (l : AsmLine) : Option Instr :=
  if l.wellFormed then
    let x : Nibble := BitVec.ofNat 4 (l.arg 0)
    let y : Nibble := BitVec.ofNat 4 (l.arg 1)
    let n : Nibble := BitVec.ofNat 4 (l.arg 2)
    let nn : Byte := BitVec.ofNat 8 (l.arg 1)
    let nnn : Addr := BitVec.ofNat 12 (l.arg 0)
    match l.op with
    | .cls => some .cls
    | .ret => some .ret
    | .jp => some (.jp nnn)
    | .call => some (.call nnn)
    | .seImm => some (.seImm x nn)
    | .sneImm => some (.sneImm x nn)
    | .seReg => some (.seReg x y)
    | .ldImm => some (.ldImm x nn)
    | .addImm => some (.addImm x nn)
    | .ldReg => some (.ldReg x y)
    | .or => some (.or x y)
    | .and => some (.and x y)
    | .xor => some (.xor x y)
    | .addReg => some (.addReg x y)
    | .sub => some (.sub x y)
    | .shr => some (.shr x 0)
    | .subn => some (.subn x y)
    | .shl => some (.shl x 0)
    | .sneReg => some (.sneReg x y)
    | .ldI => some (.ldI nnn)
    | .jpV0 => some (.jpV0 nnn)
    | .rnd => some (.rnd x nn)
    | .drw => some (.drw x y n)
    | .skp => some (.skp x)
    | .sknp => some (.sknp x)
    | .ldVxDt => some (.ldVxDt x)
    | .ldVxK => some (.ldVxK x)
    | .ldDtVx => some (.ldDtVx x)
    | .ldStVx => some (.ldStVx x)
    | .addI => some (.addI x)
    | .ldF => some (.ldF x)
    | .ldB => some (.ldB x)
    | .stRegs => some (.stRegs x)
    | .ldRegs => some (.ldRegs x)
  else none

end Sys2Proof
end

