-- ==== Sys2Proof/Decode.lean ====
section
/-! DEFINITION. Decoding and encoding (spec/30_encoding.md R91 to R98, spec/20_memory.md R66). -/

namespace Sys2Proof

/-- Why bytes are no instruction. -/
inductive DecodeError where
  | truncated (length : Nat)                -- fewer than the two bytes of R91
  | unsupportedInstruction (op : Word)      -- no row of R95 matches (R98)
  deriving DecidableEq, Repr

/-- `fam = op[15:12]` (R12). -/
def fieldFam (op : Word) : Nibble := op.extractLsb' 12 4

/-- `X = op[11:8]` (R12). -/
def fieldX (op : Word) : Nibble := op.extractLsb' 8 4

/-- `Y = op[7:4]` (R12). -/
def fieldY (op : Word) : Nibble := op.extractLsb' 4 4

/-- `N = op[3:0]` (R12). -/
def fieldN (op : Word) : Nibble := op.extractLsb' 0 4

/-- `NN = op[7:0]` (R12). -/
def fieldNN (op : Word) : Byte := op.extractLsb' 0 8

/-- `NNN = op[11:0]` (R12). -/
def fieldNNN (op : Word) : Addr := op.extractLsb' 0 12

/-- Family 0: the whole opcode is matched (R94, conflict C1). -/
def decodeFam0 (op : Word) : Except DecodeError Instr :=
  if op = 0x00E0#16 then .ok .cls
  else if op = 0x00EE#16 then .ok .ret
  else .error (.unsupportedInstruction op)

/-- Family 8 dispatches on the low nibble (R94). -/
def decodeFam8 (op : Word) : Except DecodeError Instr :=
  let x := fieldX op
  let y := fieldY op
  match (fieldN op).toNat with
  | 0x0 => .ok (.ldReg x y)
  | 0x1 => .ok (.or x y)
  | 0x2 => .ok (.and x y)
  | 0x3 => .ok (.xor x y)
  | 0x4 => .ok (.addReg x y)
  | 0x5 => .ok (.sub x y)
  | 0x6 => .ok (.shr x y)
  | 0x7 => .ok (.subn x y)
  | 0xE => .ok (.shl x y)
  | _ => .error (.unsupportedInstruction op)

/-- Family E dispatches on the low byte (R94). -/
def decodeFamE (op : Word) : Except DecodeError Instr :=
  let nn := fieldNN op
  if nn = 0x9E#8 then .ok (.skp (fieldX op))
  else if nn = 0xA1#8 then .ok (.sknp (fieldX op))
  else .error (.unsupportedInstruction op)

/-- Family F dispatches on the low byte (R94). -/
def decodeFamF (op : Word) : Except DecodeError Instr :=
  let x := fieldX op
  let nn := fieldNN op
  if nn = 0x07#8 then .ok (.ldVxDt x)
  else if nn = 0x0A#8 then .ok (.ldVxK x)
  else if nn = 0x15#8 then .ok (.ldDtVx x)
  else if nn = 0x18#8 then .ok (.ldStVx x)
  else if nn = 0x1E#8 then .ok (.addI x)
  else if nn = 0x29#8 then .ok (.ldF x)
  else if nn = 0x33#8 then .ok (.ldB x)
  else if nn = 0x55#8 then .ok (.stRegs x)
  else if nn = 0x65#8 then .ok (.ldRegs x)
  else .error (.unsupportedInstruction op)

/-- `decode(op)` of R94: the top nibble selects the family; families 5 and 9 are also matched on the low nibble (C1). -/
def decode (op : Word) : Except DecodeError Instr :=
  let x := fieldX op
  let y := fieldY op
  let nn := fieldNN op
  let nnn := fieldNNN op
  match (fieldFam op).toNat with
  | 0x0 => decodeFam0 op
  | 0x1 => .ok (.jp nnn)
  | 0x2 => .ok (.call nnn)
  | 0x3 => .ok (.seImm x nn)
  | 0x4 => .ok (.sneImm x nn)
  | 0x5 => if fieldN op = 0#4 then .ok (.seReg x y) else .error (.unsupportedInstruction op)
  | 0x6 => .ok (.ldImm x nn)
  | 0x7 => .ok (.addImm x nn)
  | 0x8 => decodeFam8 op
  | 0x9 => if fieldN op = 0#4 then .ok (.sneReg x y) else .error (.unsupportedInstruction op)
  | 0xA => .ok (.ldI nnn)
  | 0xB => .ok (.jpV0 nnn)
  | 0xC => .ok (.rnd x nn)
  | 0xD => .ok (.drw x y (fieldN op))
  | 0xE => decodeFamE op
  | _ => decodeFamF op

/-- The opcode that two bytes make: the byte at the lower address is the high byte (R63, R66). -/
def wordOfBytes (hi lo : Byte) : Word := hi ++ lo

/-- The byte of an opcode at the lower address. -/
def highByte (op : Word) : Byte := op.extractLsb' 8 8

/-- The byte of an opcode at the higher address. -/
def lowByte (op : Word) : Byte := op.extractLsb' 0 8

/-- Decoding the bytes of memory from some address up: the instruction and the bytes after it. -/
def decodeBytes : List Byte → Except DecodeError (Instr × List Byte)
  | hi :: lo :: rest =>
    match decode (wordOfBytes hi lo) with
    | .ok i => .ok (i, rest)
    | .error e => .error e
  | short => .error (.truncated short.length)

/-- Format A: `fam`, `NNN` (R92). -/
def formatA (fam : Nibble) (nnn : Addr) : Word := fam ++ nnn

/-- Formats XI and XK: `fam`, `X`, a byte that is `NN` or the function byte (R92). -/
def formatXI (fam x : Nibble) (nn : Byte) : Word := fam ++ x ++ nn

/-- Formats XY and XYN: `fam`, `X`, `Y`, a nibble that is `N` or the function nibble (R92). -/
def formatXY (fam x y n : Nibble) : Word := fam ++ x ++ y ++ n

/-- The opcode of an instruction, from the field layouts of R92 and the fixed bits of R95. -/
def encode : Instr → Word
  | .cls => 0x00E0#16
  | .ret => 0x00EE#16
  | .jp nnn => formatA 0x1#4 nnn
  | .call nnn => formatA 0x2#4 nnn
  | .seImm x nn => formatXI 0x3#4 x nn
  | .sneImm x nn => formatXI 0x4#4 x nn
  | .seReg x y => formatXY 0x5#4 x y 0x0#4
  | .ldImm x nn => formatXI 0x6#4 x nn
  | .addImm x nn => formatXI 0x7#4 x nn
  | .ldReg x y => formatXY 0x8#4 x y 0x0#4
  | .or x y => formatXY 0x8#4 x y 0x1#4
  | .and x y => formatXY 0x8#4 x y 0x2#4
  | .xor x y => formatXY 0x8#4 x y 0x3#4
  | .addReg x y => formatXY 0x8#4 x y 0x4#4
  | .sub x y => formatXY 0x8#4 x y 0x5#4
  | .shr x y => formatXY 0x8#4 x y 0x6#4
  | .subn x y => formatXY 0x8#4 x y 0x7#4
  | .shl x y => formatXY 0x8#4 x y 0xE#4
  | .sneReg x y => formatXY 0x9#4 x y 0x0#4
  | .ldI nnn => formatA 0xA#4 nnn
  | .jpV0 nnn => formatA 0xB#4 nnn
  | .rnd x nn => formatXI 0xC#4 x nn
  | .drw x y n => formatXY 0xD#4 x y n
  | .skp x => formatXI 0xE#4 x 0x9E#8
  | .sknp x => formatXI 0xE#4 x 0xA1#8
  | .ldVxDt x => formatXI 0xF#4 x 0x07#8
  | .ldVxK x => formatXI 0xF#4 x 0x0A#8
  | .ldDtVx x => formatXI 0xF#4 x 0x15#8
  | .ldStVx x => formatXI 0xF#4 x 0x18#8
  | .addI x => formatXI 0xF#4 x 0x1E#8
  | .ldF x => formatXI 0xF#4 x 0x29#8
  | .ldB x => formatXI 0xF#4 x 0x33#8
  | .stRegs x => formatXI 0xF#4 x 0x55#8
  | .ldRegs x => formatXI 0xF#4 x 0x65#8

/-- An instruction's two bytes, lowest address first. -/
def encodeBytes (i : Instr) : List Byte := [highByte (encode i), lowByte (encode i)]

/-- The two bytes, lowest address first, of an opcode-table word: its low `nbits` bits, numbered from bit 0 of the opcode. -/
def tableBytes (nbits w : Nat) : List Byte :=
  let op : Word := BitVec.ofNat 16 (w % 2 ^ nbits)
  [highByte op, lowByte op]

/-- The instruction the decoder reads from an opcode-table word, laid out high byte first (R66). -/
def decodeTableWord (nbits w : Nat) : Option Instr :=
  match decodeBytes (tableBytes nbits w) with
  | .ok (i, _) => some i
  | .error _ => none

end Sys2Proof
end

