-- ==== Sys2Proof/Config.lean ====
section
/-! DEFINITION. What is fixed for the machine (spec/00_scope.md R6) and its one free value, the random byte (R7, R153). -/

namespace Sys2Proof.Config

/-- `MEM_SIZE`: addresses 0 to 4095 exist (R6, R60). -/
def memSize : Nat := 4096

/-- `ROM_BASE`: where the program image is placed and where `PC` starts (R6, R282). -/
def romBase : Nat := 0x200

/-- `ROM_MAX`: the longest program image (R6, R284). -/
def romMax : Nat := 3584

/-- `FONT_BYTES`: 16 glyphs of 5 bytes (R6). -/
def fontBytes : Nat := 80

/-- `FB_W` (R6). -/
def fbWidth : Nat := 64

/-- `FB_H` (R6). -/
def fbHeight : Nat := 32

/-- `RND`: the byte the environment supplies at the `n`-th draw. DESIGN CHOICE (log 4), safe: it has no body,
so a theorem holds for every sequence of draws (R153, D12). -/
opaque rnd : Nat → Byte

end Sys2Proof.Config
end

