-- ==== Sys2Proof/Machine/Font.lean ====
section
/-! DEFINITION. The default font and what a byte of memory that nothing has written reads as (spec/10_state.md R27, R42). -/

namespace Sys2Proof.Machine

/-- The default `FONT`: 16 glyphs of 5 bytes, top row first (R27's table). PRESUMED (log 3), unsafe: the spec marks the
bytes as supplied from general knowledge (D3); `resetWith` takes any other font. -/
def defaultFont : List Byte :=
  [0xF0, 0x90, 0x90, 0x90, 0xF0] ++      -- 0
  [0x20, 0x60, 0x20, 0x20, 0x70] ++      -- 1
  [0xF0, 0x10, 0xF0, 0x80, 0xF0] ++      -- 2
  [0xF0, 0x10, 0xF0, 0x10, 0xF0] ++      -- 3
  [0x90, 0x90, 0xF0, 0x10, 0x10] ++      -- 4
  [0xF0, 0x80, 0xF0, 0x10, 0xF0] ++      -- 5
  [0xF0, 0x80, 0xF0, 0x90, 0xF0] ++      -- 6
  [0xF0, 0x10, 0x20, 0x40, 0x40] ++      -- 7
  [0xF0, 0x90, 0xF0, 0x90, 0xF0] ++      -- 8
  [0xF0, 0x90, 0xF0, 0x10, 0xF0] ++      -- 9
  [0xF0, 0x90, 0xF0, 0x90, 0x90] ++      -- A
  [0xE0, 0x90, 0xE0, 0x90, 0xE0] ++      -- B
  [0xF0, 0x80, 0x80, 0x80, 0xF0] ++      -- C
  [0xE0, 0x90, 0x90, 0x90, 0xE0] ++      -- D
  [0xF0, 0x80, 0xF0, 0x80, 0xF0] ++      -- E
  [0xF0, 0x80, 0xF0, 0x80, 0x80]         -- F

/-- What the byte at `a` reads as when memory lists nothing there: its reset contents with the default font and an empty
ROM (R27, R42; zero outside the font is D2, log 2). -/
def resetByte (a : Nat) : Byte := defaultFont.getD a 0

end Sys2Proof.Machine
end

