-- ==== Sys2Proof/Machine/Memory.lean ====
section
/-! DEFINITION. Memory as a canonical list of bytes that differ from their reset contents (spec/20_memory.md R60 to R68). -/

namespace Sys2Proof.Machine

/-- `MEM`: addresses strictly rising, every listed byte different from `resetByte` of its address. -/
abbrev Memory := List Host.Cell

/-- The byte at an address. -/
def Memory.read : Memory → Nat → Byte
  | [], a => resetByte a
  | (b, w) :: m, a => if a = b then w else Memory.read m a

/-- `m` with `v` at `a`, in canonical form: a byte equal to its reset contents is not listed. -/
def Memory.write : Memory → Nat → Byte → Memory
  | [], a, v => if v = resetByte a then [] else [(a, v)]
  | (b, w) :: m, a, v =>
    if a < b then (if v = resetByte a then (b, w) :: m else (a, v) :: (b, w) :: m)
    else if a = b then (if v = resetByte a then m else (a, v) :: m)
    else (b, w) :: Memory.write m a v

/-- `n` bytes at ascending addresses from `a` (R67). -/
def Memory.readList (m : Memory) (a : Nat) : Nat → List Byte
  | 0 => []
  | n + 1 => m.read a :: Memory.readList m (a + 1) n

/-- Bytes written at ascending addresses from `a` (R67). -/
def Memory.writeList (m : Memory) (a : Nat) : List Byte → Memory
  | [] => m
  | v :: vs => Memory.writeList (m.write a v) (a + 1) vs

/-- The canonical form of a list whose addresses are all at least `lo`. -/
def Memory.wfFrom (lo : Nat) : Memory → Bool
  | [] => true
  | (b, w) :: m => decide (lo ≤ b) && decide (b < Config.memSize) && decide (w ≠ resetByte b) && Memory.wfFrom (b + 1) m

/-- The canonical form: addresses strictly rising and below 4096, no entry equal to the reset contents. -/
def Memory.wf (m : Memory) : Bool := Memory.wfFrom 0 m

/-- The bound of R64 and R65 on an access of `n` bytes at `a`, on unreduced addresses; no byte, no bound. -/
def inBounds (a n : Nat) : Bool := n == 0 || decide (a + n - 1 < Config.memSize)

end Sys2Proof.Machine
end

