-- ==== Sys2Proof/Machine/State.lean ====
section
/-! DEFINITION. The architectural state (spec/10_state.md R20 to R42) and the machine right after reset. -/

namespace Sys2Proof.Machine

/-- A key's three values (R36). -/
inductive KeyState where
  | released
  | pressed
  | consumed
  deriving DecidableEq, Repr

/-- The five fault causes (spec/60_exceptions.md R231). Each is taken: the faulting step answers a next state whose
`halt` records it (R236). -/
inductive FaultCause where
  | unsupportedInstruction   -- the opcode matches no row (R232)
  | stackOverflow            -- `2NNN` with `SP` = 16 (R233)
  | stackUnderflow           -- `00EE` with `SP` = 0 (R233)
  | memoryOutOfBounds        -- a fetch, `DXYN`, `FX33`, `FX55` or `FX65` past address 4095 (R234)
  | keyIndexOutOfRange       -- `EX9E` or `EXA1` with `V[X]` > 15 (R235)
  deriving DecidableEq, Repr

/-- `Faulted(cause, at)`: the cause and the address of the opcode whose step faulted (R38). -/
structure FaultRecord where
  cause : FaultCause
  opcodeAt : Word
  deriving DecidableEq, Repr

/-- Why the host's step answers a fault. -/
inductive Fault where
  /-- Raised by `step` alone, in a state whose `HALT` is not `None`: no step happens there (R237). Safe: the spec gives
  such a state no step. -/
  | halted (record : FaultRecord)
  deriving DecidableEq, Repr

/-- Why an instruction has no meaning. -/
inductive Refusal where
  /-- Raised by an arm of `exec` that has no meaning yet, under the table's mnemonic. Safe: it proves nothing. No arm
  raises it now. -/
  | notModelled (mnemonic : String)
  deriving DecidableEq, Repr

/-- All that persists from one action to the next (R20), and `draws`, the model's own. -/
structure State where
  /-- `MEM`, 4096 bytes (R27). -/
  mem : Memory
  /-- `V[0..15]` (R21). -/
  v : Vector Byte 16
  /-- `I` (R24). -/
  i : Word
  /-- `PC` (R25). -/
  pc : Word
  /-- `STACK[0..15]` (R29). -/
  stack : Vector Word 16
  /-- `SP`, how many entries are in use, 0 to 16 (R29, R30). -/
  sp : Fin 17
  /-- `DT` (R33). -/
  dt : Byte
  /-- `ST` (R33). -/
  st : Byte
  /-- `FB[0..2047]`, `true` is on (R34). -/
  fb : Vector Bool 2048
  /-- `KEY[0..15]` (R36). -/
  keys : Vector KeyState 16
  /-- `HALT`, `none` while the machine runs (R38). -/
  halt : Option FaultRecord
  /-- How many bytes have been drawn from `RND`: the model's own, DESIGN CHOICE (log 4), safe. -/
  draws : Nat
  deriving DecidableEq, Repr

/-- The machine right after reset with the default font and an empty ROM (R42, R286): memory lists nothing, since an
unlisted byte reads as its reset contents. The zeros are the spec's decision D1 (log 1). -/
def State.reset : State where
  mem := []
  v := Vector.replicate 16 0
  i := 0
  pc := 0x200
  stack := Vector.replicate 16 0
  sp := 0
  dt := 0
  st := 0
  fb := Vector.replicate 2048 false
  keys := Vector.replicate 16 .released
  halt := none
  draws := 0

end Sys2Proof.Machine
end

