-- ==== Sys2Proof/Machine/Ops.lean ====
section
/-! DEFINITION. The named operations over the state (spec/00_scope.md R11, spec/10_state.md, spec/20_memory.md) and the
one operation that takes a fault (spec/60_exceptions.md R236). -/

namespace Sys2Proof.Machine

/-- The answer of a meaning. -/
abbrev Answer := Host.Outcome State Fault Refusal

/-! Reads. -/

/-- `V[x]` (R21). -/
def State.reg (s : State) (x : Nibble) : Byte := s.v[x.toNat]'x.isLt

/-- `KEY[k]`, the source's `query(k)` (R257). -/
def State.key (s : State) (k : Nibble) : KeyState := s.keys[k.toNat]'k.isLt

/-- `MEM[a]`, for an address that exists. -/
def State.byte (s : State) (a : Nat) : Byte := s.mem.read a

/-! Writes: each names the one field it changes. -/

/-- `V[x] <- b` (R21). -/
def State.setReg (s : State) (x : Nibble) (b : Byte) : State := { s with v := s.v.set x.toNat b x.isLt }

/-- `I <- w` (R24). -/
def State.setI (s : State) (w : Word) : State := { s with i := w }

/-- `PC <- w` (R25). -/
def State.setPc (s : State) (w : Word) : State := { s with pc := w }

/-- `DT <- b` (R33). -/
def State.setDt (s : State) (b : Byte) : State := { s with dt := b }

/-- `ST <- b` (R33). -/
def State.setSt (s : State) (b : Byte) : State := { s with st := b }

/-- The whole frame buffer, as `clear` and the blit leave it (R190). -/
def State.setFb (s : State) (fb : Vector Bool 2048) : State := { s with fb := fb }

/-- The whole of memory, as a store leaves it. -/
def State.setMem (s : State) (m : Memory) : State := { s with mem := m }

/-- `KEY[k] <- c` (R36). -/
def State.setKey (s : State) (k : Nibble) (c : KeyState) : State := { s with keys := s.keys.set k.toNat c k.isLt }

/-- The next draw from `RND` counts as used (log 4). -/
def State.countDraw (s : State) : State := { s with draws := s.draws + 1 }

/-! Taking a fault. -/

/-- `raise Fault(cause)` for the opcode at `a`: `HALT <- Faulted(cause, a)`, nothing else is written (R236). -/
def State.raise (s : State) (c : FaultCause) (a : Word) : State := { s with halt := some ⟨c, a⟩ }

/-- The address of the opcode being executed: during execution `PC` is that address plus 2 (R25, R90). -/
def State.opcodeAt (s : State) : Word := s.pc - 2

/-- What an instruction answers: the state it computed, or `s` with the fault taken (R13, R236). -/
def complete (s : State) : Except FaultCause State → Answer
  | .ok t => .next t
  | .error c => .next (s.raise c s.opcodeAt)

/-! Memory accesses, whole ranges checked before anything is done (R61 to R65). -/

/-- `n` bytes from address `a` up; `n` = 1 is `MemRead(a, 1)` (R61, R65). -/
def State.loadBytes (s : State) (a n : Nat) : Except FaultCause (List Byte) :=
  if inBounds a n then .ok (s.mem.readList a n) else .error .memoryOutOfBounds

/-- Bytes stored from address `a` up; one byte is `MemWrite(a, 1, v)` (R62, R65). No address is protected (R28). -/
def State.storeBytes (s : State) (a : Nat) (vs : List Byte) : Except FaultCause State :=
  if inBounds a vs.length then .ok (s.setMem (s.mem.writeList a vs)) else .error .memoryOutOfBounds

/-! The call stack. -/

/-- `push(w)` (R31). -/
def State.push (s : State) (w : Word) : Except FaultCause State :=
  if h : s.sp.val < 16 then
    .ok { s with stack := s.stack.set s.sp.val w h, sp := ⟨s.sp.val + 1, by omega⟩ }
  else .error .stackOverflow

/-- `pop()` (R32): the entry released, and the state with it released. The entry stays in the array. -/
def State.pop (s : State) : Except FaultCause (Word × State) :=
  if h : 0 < s.sp.val then
    .ok (s.stack[s.sp.val - 1]'(by omega), { s with sp := ⟨s.sp.val - 1, by omega⟩ })
  else .error .stackUnderflow

/-! Keys. -/

/-- The key a byte names: the whole byte is the number, and above 15 there is no key (R210). -/
def State.keyNumbered (s : State) (b : Byte) : Except FaultCause KeyState :=
  if b.toNat < 16 then .ok (s.key (BitVec.ofNat 4 b.toNat)) else .error .keyIndexOutOfRange

/-- The lowest-numbered `Pressed` key (R214, D10). -/
def State.lowestPressed (s : State) : Option Nibble :=
  ((List.range 16).map (BitVec.ofNat 4)).find? fun k => s.key k == .pressed

/-- `consume(k)`: `Pressed` becomes `Consumed`, anything else stays (R257). -/
def State.consume (s : State) (k : Nibble) : State := if s.key k = .pressed then s.setKey k .consumed else s

/-! The program counter. -/

/-- The advance of `PC` past one instruction (R90). -/
def State.advance (s : State) : State := s.setPc (s.pc + 2)

/-- `skip` when the condition holds (R120). -/
def State.skipIf (s : State) (c : Bool) : State := if c then s.setPc (s.pc + 2) else s

end Sys2Proof.Machine
end

