-- ==== Sys2Proof/Machine/Operands.lean ====
section
/-! DEFINITION. The operand forms (spec/30_encoding.md R93, spec/42_index_memory.md R170). -/

namespace Sys2Proof.Machine

/-- `zext_16(NNN)`: an absolute address (R93). -/
def target (nnn : Addr) : Word := nnn.setWidth 16

/-- `zext_16(V[x])`. -/
def State.regWord (s : State) (x : Nibble) : Word := (s.reg x).setWidth 16

/-- The effective address of the first byte a data access touches: `I`, as an unbounded number (R170). -/
def State.dataBase (s : State) : Nat := s.i.toNat

/-- `V[0]` to `V[x]`, the operands of `FX55` (R175). -/
def State.regsUpTo (s : State) (x : Nibble) : List Byte :=
  (List.range (x.toNat + 1)).map fun k => s.reg (BitVec.ofNat 4 k)

/-- Registers from `V[k]` up take the bytes of a list, in order (R176). -/
def State.setRegsFrom (s : State) (k : Nat) : List Byte → State
  | [] => s
  | b :: bs => State.setRegsFrom (s.setReg (BitVec.ofNat 4 k) b) (k + 1) bs

/-- `I <- (I + n) mod 65536` (R24, D14). -/
def State.addToI (s : State) (n : Nat) : State := s.setI (BitVec.ofNat 16 (s.i.toNat + n))

/-- `5 * zext_16(b)`: the address of glyph `b` (R173). The whole byte is used (D24). -/
def glyphAddress (b : Byte) : Word := BitVec.ofNat 16 (5 * b.toNat)

/-- The decimal digits of a byte, hundreds first (R174). -/
def bcdDigits (b : Byte) : List Byte :=
  [BitVec.ofNat 8 (b.toNat / 100), BitVec.ofNat 8 (b.toNat / 10 % 10), BitVec.ofNat 8 (b.toNat % 10)]

end Sys2Proof.Machine
end

