-- ==== Sys2Proof/Machine/Flags.lean ====
section
/-! DEFINITION. The flag computations and the order of the flag and result writes (spec/41_alu.md R146 to R152). -/

namespace Sys2Proof.Machine

/-- `VF` = `V[15]`, the one flag (R22). -/
def flagReg : Nibble := 15#4

/-- A truth value as a flag byte. -/
def flagOf (c : Bool) : Byte := if c then 1 else 0

/-- Carry: the unreduced sum passes 255 (R147, R152). -/
def carryFlag (a b : Byte) : Byte := flagOf (decide (a.toNat + b.toNat > 255))

/-- No borrow in `a - b`: `a >= b` on the unreduced operands (R148, R150, R152). -/
def noBorrowFlag (a b : Byte) : Byte := flagOf (decide (a.toNat ≥ b.toNat))

/-- The bit a right shift drops (R149). -/
def shiftedOutRight (a : Byte) : Byte := a &&& 1

/-- The bit a left shift drops (R151). -/
def shiftedOutLeft (a : Byte) : Byte := a >>> 7

/-- The two writes of R146: first `VF <- f`, then `V[x] <-` the result computed from the register file as it then stands (D7, log 7). -/
def State.flagThenResult (s : State) (f : Byte) (x : Nibble) (result : State → Byte) : State :=
  (s.setReg flagReg f).setReg x (result (s.setReg flagReg f))

end Sys2Proof.Machine
end

