-- ==== Sys2Proof/Machine/Alu.lean ====
section
/-! DEFINITION. Load, arithmetic, logic, shift and random instructions (spec/41_alu.md). None faults. -/

namespace Sys2Proof.Machine

/-- `6XNN` (R140): `VX = NN`. -/
def execLdImm (x : Nibble) (nn : Byte) (s : State) : Answer := .next (s.setReg x nn)

/-- `7XNN` (R141): `VX += NN` mod 256, no flag. -/
def execAddImm (x : Nibble) (nn : Byte) (s : State) : Answer := .next (s.setReg x (s.reg x + nn))

/-- `8XY0` (R142): `VX = VY`. -/
def execLdReg (x y : Nibble) (s : State) : Answer := .next (s.setReg x (s.reg y))

/-- `8XY1` (R143): bitwise or; `VF` untouched unless it is `VX`. -/
def execOr (x y : Nibble) (s : State) : Answer := .next (s.setReg x (s.reg x ||| s.reg y))

/-- `8XY2` (R144): bitwise and. -/
def execAnd (x y : Nibble) (s : State) : Answer := .next (s.setReg x (s.reg x &&& s.reg y))

/-- `8XY3` (R145): bitwise exclusive or. -/
def execXor (x y : Nibble) (s : State) : Answer := .next (s.setReg x (s.reg x ^^^ s.reg y))

/-- `8XY4` (R147): `VF = (VX+VY>255); VX += VY`. -/
def execAddReg (x y : Nibble) (s : State) : Answer :=
  .next (s.flagThenResult (carryFlag (s.reg x) (s.reg y)) x fun t => t.reg x + t.reg y)

/-- `8XY5` (R148): `VF = (VX>=VY); VX -= VY`. -/
def execSub (x y : Nibble) (s : State) : Answer :=
  .next (s.flagThenResult (noBorrowFlag (s.reg x) (s.reg y)) x fun t => t.reg x - t.reg y)

/-- `8XY6` (R149): `VF = VX&1; VX >>= 1`; `Y` is not used. -/
def execShr (x : Nibble) (s : State) : Answer :=
  .next (s.flagThenResult (shiftedOutRight (s.reg x)) x fun t => t.reg x >>> 1)

/-- `8XY7` (R150): `VF = (VY>=VX); VX = VY-VX`. -/
def execSubn (x y : Nibble) (s : State) : Answer :=
  .next (s.flagThenResult (noBorrowFlag (s.reg y) (s.reg x)) x fun t => t.reg y - t.reg x)

/-- `8XYE` (R151): `VF = VX>>7; VX <<= 1`; `Y` is not used. -/
def execShl (x : Nibble) (s : State) : Answer :=
  .next (s.flagThenResult (shiftedOutLeft (s.reg x)) x fun t => t.reg x <<< 1)

/-- `CXNN` (R153): `VX = random_byte() & NN`, one fresh draw. -/
def execRnd (x : Nibble) (nn : Byte) (s : State) : Answer :=
  .next ((s.setReg x (Config.rnd s.draws &&& nn)).countDraw)

end Sys2Proof.Machine
end

