-- ==== Sys2Proof/Machine/Control.lean ====
section
/-! DEFINITION. Control-flow instructions (spec/40_control_flow.md). On entry `PC` is the opcode's address plus 2. -/

namespace Sys2Proof.Machine

/-- `00EE` (R121): `pc = pop()`. -/
def execRet (s : State) : Answer := complete s (s.pop.map fun r => r.2.setPc r.1)

/-- `1NNN` (R122): `pc = NNN`. -/
def execJp (nnn : Addr) (s : State) : Answer := .next (s.setPc (target nnn))

/-- `2NNN` (R123): `push(pc); pc = NNN`. -/
def execCall (nnn : Addr) (s : State) : Answer := complete s ((s.push s.pc).map fun t => t.setPc (target nnn))

/-- `3XNN` (R124): skip if `V[X]` = `NN`. -/
def execSeImm (x : Nibble) (nn : Byte) (s : State) : Answer := .next (s.skipIf (s.reg x == nn))

/-- `4XNN` (R125): skip if `V[X]` differs from `NN`. -/
def execSneImm (x : Nibble) (nn : Byte) (s : State) : Answer := .next (s.skipIf (s.reg x != nn))

/-- `5XY0` (R126): skip if `V[X]` = `V[Y]`. -/
def execSeReg (x y : Nibble) (s : State) : Answer := .next (s.skipIf (s.reg x == s.reg y))

/-- `9XY0` (R127): skip if `V[X]` differs from `V[Y]`. -/
def execSneReg (x y : Nibble) (s : State) : Answer := .next (s.skipIf (s.reg x != s.reg y))

/-- `BNNN` (R129): `pc = NNN + V0`, not reduced to 12 bits. -/
def execJpV0 (nnn : Addr) (s : State) : Answer := .next (s.setPc (target nnn + s.regWord 0))

end Sys2Proof.Machine
end

