-- ==== Sys2Proof/Machine/Display.lean ====
section
/-! DEFINITION. The frame buffer, the sprite blitter and the display instructions (spec/43_display.md). -/

namespace Sys2Proof.Machine

/-- `FB`: 2048 cells. -/
abbrev FrameBuffer := Vector Bool 2048

/-- The index `y*64 + x` of a cell (spec/10_state.md R35, D5), each coordinate first reduced by its modulus (R194). -/
def cellIndex (x y : Nat) : Fin 2048 := ⟨y % 32 * 64 + x % 64, by omega⟩

/-- Every cell off: the source's `clear()` (R190). -/
def clearedFb : FrameBuffer := Vector.replicate 2048 false

/-- One cell of the blit, whose sprite bit is 1: the cell flips, and a cell that was on collides (R195). -/
def blitCell (j : Fin 2048) (acc : FrameBuffer × Bool) : FrameBuffer × Bool :=
  (acc.1.set j.val (!acc.1[j.val]) j.isLt, acc.2 || acc.1[j.val])

/-- One sprite row: column `c` is bit `7 - c` (R192, D4), drawn at column `x0 + c`. -/
def blitRow (x0 y : Nat) (row : Byte) (acc : FrameBuffer × Bool) : FrameBuffer × Bool :=
  (List.range 8).foldl (fun acc c => if row.getLsbD (7 - c) then blitCell (cellIndex (x0 + c) y) acc else acc) acc

/-- The rows of a sprite from row `y` down (R193). -/
def blitRows (x0 y : Nat) : List Byte → FrameBuffer × Bool → FrameBuffer × Bool
  | [], acc => acc
  | row :: rows, acc => blitRows x0 (y + 1) rows (blitRow x0 y row acc)

/-- The source's `drawSprite(V[x], V[y], rows)`: the new frame buffer and whether a cell collided. -/
def State.drawSprite (s : State) (x y : Nibble) (rows : List Byte) : FrameBuffer × Bool :=
  blitRows (s.reg x).toNat (s.reg y).toNat rows (s.fb, false)

/-- `00E0` (R191): every cell off; `VF` is not written. -/
def execCls (s : State) : Answer := .next (s.setFb clearedFb)

/-- `DXYN` (R193): blit `N` rows from `I` at (`V[X]`, `V[Y]`), coordinates read before `VF` is written; `VF` = collision. -/
def execDrw (x y n : Nibble) (s : State) : Answer :=
  complete s ((s.loadBytes s.dataBase n.toNat).map fun rows =>
    (s.setFb (s.drawSprite x y rows).1).setReg flagReg (flagOf (s.drawSprite x y rows).2))

end Sys2Proof.Machine
end

