-- ==== Sys2Proof/Machine/Index.lean ====
section
/-! DEFINITION. Index-register and memory instructions (spec/42_index_memory.md). None writes `PC` or a flag. -/

namespace Sys2Proof.Machine

/-- `ANNN` (R171): `I = NNN`. -/
def execLdI (nnn : Addr) (s : State) : Answer := .next (s.setI (target nnn))

/-- `FX1E` (R172): `I += VX` mod 65536, no flag. -/
def execAddI (x : Nibble) (s : State) : Answer := .next (s.addToI (s.reg x).toNat)

/-- `FX29` (R173): `I = 5*VX`. -/
def execLdF (x : Nibble) (s : State) : Answer := .next (s.setI (glyphAddress (s.reg x)))

/-- `FX33` (R174): the decimal digits of `VX` at `I`, `I+1`, `I+2`. -/
def execLdB (x : Nibble) (s : State) : Answer := complete s (s.storeBytes s.dataBase (bcdDigits (s.reg x)))

/-- `FX55` (R175): `V0` to `VX` into memory from `I`; `I += X+1`. -/
def execStRegs (x : Nibble) (s : State) : Answer :=
  complete s ((s.storeBytes s.dataBase (s.regsUpTo x)).map fun t => t.addToI (x.toNat + 1))

/-- `FX65` (R176): memory from `I` into `V0` to `VX`; `I += X+1`. -/
def execLdRegs (x : Nibble) (s : State) : Answer :=
  complete s ((s.loadBytes s.dataBase (x.toNat + 1)).map fun bs => (s.setRegsFrom 0 bs).addToI (x.toNat + 1))

end Sys2Proof.Machine
end

