-- ==== Sys2Proof/Machine/KeysTimers.lean ====
section
/-! DEFINITION. Key and timer instructions (spec/44_keys_timers.md). -/

namespace Sys2Proof.Machine

/-- `EX9E` (R211): skip if key `V[X]` is `Pressed`. -/
def execSkp (x : Nibble) (s : State) : Answer :=
  complete s ((s.keyNumbered (s.reg x)).map fun c => s.skipIf (c == .pressed))

/-- `EXA1` (R212): skip if key `V[X]` is not `Pressed`. -/
def execSknp (x : Nibble) (s : State) : Answer :=
  complete s ((s.keyNumbered (s.reg x)).map fun c => s.skipIf (c != .pressed))

/-- `FX07` (R215): `VX = delay`. -/
def execLdVxDt (x : Nibble) (s : State) : Answer := .next (s.setReg x s.dt)

/-- `FX0A` (R214): take the lowest `Pressed` key, or put `PC` back so that the same opcode is fetched again. -/
def execLdVxK (x : Nibble) (s : State) : Answer :=
  match s.lowestPressed with
  | some k => .next ((s.setReg x (k.setWidth 8)).consume k)
  | none => .next (s.setPc (s.pc - 2))

/-- `FX15` (R216): `delay = VX`. -/
def execLdDtVx (x : Nibble) (s : State) : Answer := .next (s.setDt (s.reg x))

/-- `FX18` (R217): `sound = VX`; no beep. -/
def execLdStVx (x : Nibble) (s : State) : Answer := .next (s.setSt (s.reg x))

end Sys2Proof.Machine
end

