-- ==== Sys2Proof/Machine/Dispatch.lean ====
section
/-! DEFINITION. One arm per instruction (spec/30_encoding.md R95), each one direct call of its meaning. -/

namespace Sys2Proof.Machine

-- `s` is the state during execution: `PC` has been advanced past the opcode (R90).
def exec (i : Instr) (s : State) : Host.Outcome State Fault Refusal :=
  match i with
  | .cls => Sys2Proof.Machine.execCls s   -- 00E0
  | .ret => Sys2Proof.Machine.execRet s   -- 00EE
  | .jp nnn => Sys2Proof.Machine.execJp nnn s   -- 1NNN
  | .call nnn => Sys2Proof.Machine.execCall nnn s   -- 2NNN
  | .seImm x nn => Sys2Proof.Machine.execSeImm x nn s   -- 3XNN
  | .sneImm x nn => Sys2Proof.Machine.execSneImm x nn s   -- 4XNN
  | .seReg x y => Sys2Proof.Machine.execSeReg x y s   -- 5XY0
  | .ldImm x nn => Sys2Proof.Machine.execLdImm x nn s   -- 6XNN
  | .addImm x nn => Sys2Proof.Machine.execAddImm x nn s   -- 7XNN
  | .ldReg x y => Sys2Proof.Machine.execLdReg x y s   -- 8XY0
  | .or x y => Sys2Proof.Machine.execOr x y s   -- 8XY1
  | .and x y => Sys2Proof.Machine.execAnd x y s   -- 8XY2
  | .xor x y => Sys2Proof.Machine.execXor x y s   -- 8XY3
  | .addReg x y => Sys2Proof.Machine.execAddReg x y s   -- 8XY4
  | .sub x y => Sys2Proof.Machine.execSub x y s   -- 8XY5
  | .shr x _ => Sys2Proof.Machine.execShr x s   -- 8XY6
  | .subn x y => Sys2Proof.Machine.execSubn x y s   -- 8XY7
  | .shl x _ => Sys2Proof.Machine.execShl x s   -- 8XYE
  | .sneReg x y => Sys2Proof.Machine.execSneReg x y s   -- 9XY0
  | .ldI nnn => Sys2Proof.Machine.execLdI nnn s   -- ANNN
  | .jpV0 nnn => Sys2Proof.Machine.execJpV0 nnn s   -- BNNN
  | .rnd x nn => Sys2Proof.Machine.execRnd x nn s   -- CXNN
  | .drw x y n => Sys2Proof.Machine.execDrw x y n s   -- DXYN
  | .skp x => Sys2Proof.Machine.execSkp x s   -- EX9E
  | .sknp x => Sys2Proof.Machine.execSknp x s   -- EXA1
  | .ldVxDt x => Sys2Proof.Machine.execLdVxDt x s   -- FX07
  | .ldVxK x => Sys2Proof.Machine.execLdVxK x s   -- FX0A
  | .ldDtVx x => Sys2Proof.Machine.execLdDtVx x s   -- FX15
  | .ldStVx x => Sys2Proof.Machine.execLdStVx x s   -- FX18
  | .addI x => Sys2Proof.Machine.execAddI x s   -- FX1E
  | .ldF x => Sys2Proof.Machine.execLdF x s   -- FX29
  | .ldB x => Sys2Proof.Machine.execLdB x s   -- FX33
  | .stRegs x => Sys2Proof.Machine.execStRegs x s   -- FX55
  | .ldRegs x => Sys2Proof.Machine.execLdRegs x s   -- FX65

end Sys2Proof.Machine
end

