-- ==== Sys2Proof/Machine/Fetch.lean ====
section
/-! DEFINITION. Fetching and decoding the opcode at `PC` (spec/20_memory.md R63, spec/30_encoding.md R90). -/

namespace Sys2Proof.Machine

/-- `MemRead(PC, 2)`: the two bytes at `PC`, high byte first; `PC` + 1 must be at most 4095 (R63, R66). -/
def State.fetchBytes (s : State) : Except FaultCause (List Byte) := s.loadBytes s.pc.toNat 2

/-- The step up to execution (R90, R238): the instruction with `PC` advanced, or the state with the fault of the fetch
(`PC` not advanced) or of the decode (`PC` advanced) taken. -/
def State.fetchDecode (s : State) : Except State (Instr × State) :=
  match s.fetchBytes with
  | .error c => .error (s.raise c s.pc)
  | .ok bytes =>
    match decodeBytes bytes with
    | .error _ => .error (s.advance.raise .unsupportedInstruction s.pc)
    | .ok (i, _) => .ok (i, s.advance)

/-- `s` with bytes placed where `step` fetches its next opcode. -/
def State.placeAtPc (s : State) (bytes : List Byte) : State :=
  match s.storeBytes s.pc.toNat bytes with
  | .ok t => t
  | .error _ => s

end Sys2Proof.Machine
end

