-- ==== Sys2Proof/Machine/Step.lean ====
section
/-! DEFINITION. One step of the interpreter (spec/30_encoding.md R90). -/

namespace Sys2Proof.Machine

/-- The interpreter's `step` (R90): none happens while `HALT` is not `None` (R237); otherwise fetch, advance `PC`, decode,
execute, a fault being taken where it arises. -/
def step (s : State) : Host.Outcome State Fault Refusal :=
  match s.halt with
  | some r => .fault (.halted r)
  | none =>
    match s.fetchDecode with
    | .error t => .next t
    | .ok (i, t) => exec i t

/-- `s` with the instruction of an opcode-table word stored at `PC`, where `step` fetches. For it to run, `HALT` must be
`None` and `PC` at most 4094, as after reset. -/
def State.withFetchWord (s : State) (nbits w : Nat) : State := s.placeAtPc (tableBytes nbits w)

end Sys2Proof.Machine
end

