-- ==== Sys2Proof/Machine/Agents.lean ====
section
/-! DEFINITION. The other agents and how their actions interleave with steps: the tick, key events, snapshot and reset
(spec/60_exceptions.md R250 to R263, spec/70_reset_and_hazards.md R280 to R286). -/

namespace Sys2Proof.Machine

/-! The timer tick. -/

/-- A timer's decrement: by 1, floored at 0 (R251). -/
def countDown (b : Byte) : Byte := if b = 0 then 0 else b - 1

/-- The tick's effect on the timers; it touches nothing else (R251). -/
def State.tickTimers (s : State) : State := (s.setDt (countDown s.dt)).setSt (countDown s.st)

/-- Whether the tick emits a beep request: exactly when it takes `ST` from 1 to 0 (R252). -/
def State.beeps (s : State) : Bool := s.st == 1

/-- `tick` (R251): needs `HALT` = `None` (R237); the new state and whether a beep is requested. -/
def tick (s : State) : Option (State × Bool) :=
  match s.halt with
  | some _ => none
  | none => some (s.tickTimers, s.beeps)

/-! The input producer. -/

/-- `key_press(k)`: `Released` becomes `Pressed`, anything else stays (R253, D25). -/
def keyPress (k : Nibble) (s : State) : State := if s.key k = .released then s.setKey k .pressed else s

/-- `key_release(k)`: `Released` from any state (R254). -/
def keyRelease (k : Nibble) (s : State) : State := s.setKey k .released

/-! The display consumer. -/

/-- `snapshot`: a copy of all 2048 cells; the state is unchanged (R258). -/
def snapshot (s : State) : FrameBuffer := s.fb

/-! Reset. -/

/-- Memory after reset: zeros, then the font at 0, then the ROM at 0x200 (R281). -/
def resetMemory (font : Vector Byte 80) (rom : List Byte) : Memory :=
  (Memory.writeList [] 0 font.toList).writeList Config.romBase rom

/-- `reset(ROM)` with a font, from a state whose draw count is kept (R280, R283): no successor for an image longer than
3584 bytes (R284, D23). The draws go on, since the generator is outside the machine (R153). -/
def resetWith (font : Vector Byte 80) (rom : List Byte) (s : State) : Option State :=
  if rom.length ≤ Config.romMax then
    some { State.reset with mem := resetMemory font rom, draws := s.draws }
  else none

/-! The outputs of R259. -/

/-- The numeric code of a cause (R231). -/
def FaultCause.code : FaultCause → Nat
  | .unsupportedInstruction => 1
  | .stackOverflow => 2
  | .stackUnderflow => 3
  | .memoryOutOfBounds => 4
  | .keyIndexOutOfRange => 5

/-- The fault output: cause code and opcode address, held while halted (R259). -/
def faultPort (s : State) : Option (Nat × Word) := s.halt.map fun r => (r.cause.code, r.opcodeAt)

/-- The outcome of a step (spec/00_scope.md R13). -/
inductive StepResult where
  | next
  | retry
  | fault (cause : FaultCause)
  deriving DecidableEq, Repr

/-- Whether the next step is an `FX0A` that finds no key `Pressed` (R214). -/
def State.retries (s : State) : Bool :=
  match s.fetchDecode with
  | .ok (.ldVxK _, t) => t.lowestPressed.isNone
  | _ => false

/-- The outcome that a step from `s` to `t` reports (R13). -/
def stepResult (s t : State) : StepResult :=
  match t.halt with
  | some r => .fault r.cause
  | none => if s.retries then .retry else .next

/-! Actions and executions. -/

/-- The actions of the machine (R255, R263). A stop is the end of a list of actions (R256). -/
inductive Action where
  | step
  | tick
  | keyPress (k : Nibble)
  | keyRelease (k : Nibble)
  | snapshot
  | reset (font : Vector Byte 80) (rom : List Byte)
  deriving DecidableEq, Repr

/-- What an action gives back to the environment (R259, R263). -/
inductive Output where
  | stepped (r : StepResult)
  | beep
  | frame (cells : FrameBuffer)
  deriving DecidableEq, Repr

/-- One atomic action: the new state and its outputs, or `none` where the action cannot happen (R255). -/
def act (a : Action) (s : State) : Option (State × List Output) :=
  match a with
  | .step =>
    match Sys2Proof.Machine.step s with
    | .next t => some (t, [.stepped (stepResult s t)])
    | .fault _ => none
    | .refused _ => none
  | .tick => (Sys2Proof.Machine.tick s).map fun r => (r.1, if r.2 then [.beep] else [])
  | .keyPress k => some (Sys2Proof.Machine.keyPress k s, [])
  | .keyRelease k => some (Sys2Proof.Machine.keyRelease k s, [])
  | .snapshot => some (s, [.frame (Sys2Proof.Machine.snapshot s)])
  | .reset font rom => (resetWith font rom s).map fun t => (t, [])

/-- An execution: any sequence of actions (R255), with the outputs in order; `none` if one of them cannot happen. -/
def run : List Action → State → Option (State × List Output)
  | [], s => some (s, [])
  | a :: as, s =>
    match act a s with
    | none => none
    | some (t, out) => (run as t).map fun r => (r.1, out ++ r.2)

/-- An infinite execution: the states it passes through and the action taken at each (R255). -/
def IsExecution (states : Nat → State) (actions : Nat → Action) : Prop :=
  ∀ n, ∃ out, act (actions n) (states n) = some (states (n + 1), out)

/-- The machine is not halted from the `n`-th state of the execution on; what went before, a fault and a reset included,
does not matter. -/
def RunsFrom (states : Nat → State) (n : Nat) : Prop := ∀ m, n ≤ m → (states m).halt = none

/-- An action is taken again and again for ever. -/
def TakenForEver (actions : Nat → Action) (a : Action) : Prop := ∀ n, ∃ m, n ≤ m ∧ actions m = a

/-- Weak fairness of `step` and of `tick` (R256, R296): both need `HALT` = `None` (R255), and an execution in which that holds
from some state on takes both for ever. -/
def Fair (states : Nat → State) (actions : Nat → Action) : Prop :=
  (∃ n, RunsFrom states n) → TakenForEver actions .step ∧ TakenForEver actions .tick

end Sys2Proof.Machine
end

