-- ==== Sys2Proof/Safety.lean ====
section
/-! DEFINITION. The terms claims are stated in: completing, frames, the invariant, and the spec's own tables written
independently of the machine (R98, R146, R193, R231, R292). -/

namespace Sys2Proof.Machine

/-- The answer is a next state of which `P` holds. -/
def Completes (o : Answer) (P : State → Prop) : Prop := ∃ t, o = .next t ∧ P t

/-- The pieces of state of R20, and the model's `draws`. -/
inductive Piece where
  | mem | v | i | pc | stack | sp | dt | st | fb | keys | halt | draws
  deriving DecidableEq, Repr

/-- From `s` to `t` nothing but the listed pieces changed; memory is compared byte by byte. -/
def SameBut (changed : List Piece) (s t : State) : Prop :=
  (.mem ∉ changed → ∀ a, t.byte a = s.byte a) ∧
  (.v ∉ changed → ∀ y, t.reg y = s.reg y) ∧
  (.i ∉ changed → t.i = s.i) ∧
  (.pc ∉ changed → t.pc = s.pc) ∧
  (.stack ∉ changed → t.stack = s.stack) ∧
  (.sp ∉ changed → t.sp = s.sp) ∧
  (.dt ∉ changed → t.dt = s.dt) ∧
  (.st ∉ changed → t.st = s.st) ∧
  (.fb ∉ changed → t.fb = s.fb) ∧
  (.keys ∉ changed → ∀ k, t.key k = s.key k) ∧
  (.halt ∉ changed → t.halt = s.halt) ∧
  (.draws ∉ changed → t.draws = s.draws)

/-- Every register outside the list is unchanged. -/
def RegsSameBut (changed : List Nibble) (s t : State) : Prop := ∀ y, y ∉ changed → t.reg y = s.reg y

/-- The machine took a fault of this cause, and nothing but `HALT` changed. -/
def TookFault (c : FaultCause) (s t : State) : Prop := (∃ a, t.halt = some ⟨c, a⟩) ∧ SameBut [.halt] s t

/-- `STACK[j]`; zero past the array. -/
def State.stackEntry (s : State) (j : Nat) : Word := s.stack.toList.getD j 0

/-- The cell at column `x` and row `y` (R35); off outside the screen. -/
def State.cell (s : State) (x y : Nat) : Bool := s.fb.toList.getD (y * 64 + x) false

/-- Whether the sprite of `DXYN` has a 1 bit over the cell (`cx`, `cy`): the cell lies in row `r` and column `c` of the
sprite, counted with wrap from (`V[x]`, `V[y]`), and bit `7 - c` of the byte at `I + r` is 1 (R192, R194). -/
def State.spriteCovers (s : State) (x y n : Nibble) (cx cy : Nat) : Bool :=
  let c := (cx + 64 - (s.reg x).toNat % 64) % 64
  let r := (cy + 32 - (s.reg y).toNat % 32) % 32
  decide (c < 8) && decide (r < n.toNat) && (s.byte (s.i.toNat + r)).getLsbD (7 - c)

/-- R98's list of the illegal opcodes, by the opcode's number. -/
def illegalOpcode (op : Nat) : Bool :=
  let fam := op / 4096
  let low := op % 16
  let byte := op % 256
  (fam == 0 && op != 0x00E0 && op != 0x00EE) ||
  ((fam == 5 || fam == 9) && low != 0) ||
  (fam == 8 && [0x8, 0x9, 0xA, 0xB, 0xC, 0xD, 0xF].contains low) ||
  (fam == 0xE && !([0x9E, 0xA1].contains byte)) ||
  (fam == 0xF && !([0x07, 0x0A, 0x15, 0x18, 0x1E, 0x29, 0x33, 0x55, 0x65].contains byte))

/-- The opcode at `PC`, high byte first (R63). -/
def State.opcodeAtPc (s : State) : Word := wordOfBytes (s.byte s.pc.toNat) (s.byte (s.pc.toNat + 1))

/-- R231's table: the fault an instruction takes, from the state during its execution. -/
def expectedFault (i : Instr) (s : State) : Option FaultCause :=
  match i with
  | .call _ => if s.sp.val = 16 then some .stackOverflow else none
  | .ret => if s.sp.val = 0 then some .stackUnderflow else none
  | .drw _ _ n => if 0 < n.toNat ∧ 4096 ≤ s.i.toNat + n.toNat - 1 then some .memoryOutOfBounds else none
  | .ldB _ => if 4096 ≤ s.i.toNat + 2 then some .memoryOutOfBounds else none
  | .stRegs x => if 4096 ≤ s.i.toNat + x.toNat then some .memoryOutOfBounds else none
  | .ldRegs x => if 4096 ≤ s.i.toNat + x.toNat then some .memoryOutOfBounds else none
  | .skp x => if 15 < (s.reg x).toNat then some .keyIndexOutOfRange else none
  | .sknp x => if 15 < (s.reg x).toNat then some .keyIndexOutOfRange else none
  | .cls | .jp _ | .seImm _ _ | .sneImm _ _ | .seReg _ _ | .ldImm _ _ | .addImm _ _ | .ldReg _ _ | .or _ _ | .and _ _
  | .xor _ _ | .addReg _ _ | .sub _ _ | .shr _ _ | .subn _ _ | .shl _ _ | .sneReg _ _ | .ldI _ | .jpV0 _ | .rnd _ _
  | .ldVxDt _ | .ldVxK _ | .ldDtVx _ | .ldStVx _ | .addI _ | .ldF _ => none

/-- The register an instruction's `X` field names, for the formats that have one (R92). -/
def xField : Instr → Option Nibble
  | .seImm x _ | .sneImm x _ | .seReg x _ | .ldImm x _ | .addImm x _ | .ldReg x _ | .or x _ | .and x _ | .xor x _
  | .addReg x _ | .sub x _ | .shr x _ | .subn x _ | .shl x _ | .sneReg x _ | .rnd x _ | .drw x _ _ | .skp x | .sknp x
  | .ldVxDt x | .ldVxK x | .ldDtVx x | .ldStVx x | .addI x | .ldF x | .ldB x | .stRegs x | .ldRegs x => some x
  | .cls | .ret | .jp _ | .call _ | .ldI _ | .jpV0 _ => none

/-- The invariant: memory in canonical form, `PC` never past 4350 (R26), every live stack entry an address `2NNN` can
push, at most 4096 (R26). `SP` at most 16 (R30) holds by its type. -/
def State.Inv (s : State) : Prop :=
  s.mem.wf = true ∧ s.pc.toNat ≤ 4350 ∧ ∀ j : Fin 16, j.val < s.sp.val → (s.stackEntry j.val).toNat ≤ 4096

/-- The completed run of R292 (D28): not halted, and the opcode at `PC` is a jump to `PC`. -/
def State.completed (s : State) : Prop :=
  s.halt = none ∧ s.pc.toNat < 4095 ∧ s.opcodeAtPc.toNat = 0x1000 + s.pc.toNat

end Sys2Proof.Machine
end

