-- ==== Sys2Proof/Certificates/Slice0/Obligations.lean ====
section
/-! DEFINITION. The statements for the provers. `exec i s` is an instruction's execution, with `PC` in `s` already advanced
past the opcode (R90); `step` is the whole step. A statement that rests on a decision of spec/92_eei_decisions.md or on a
choice of the model says so and names the decision and the log entry. -/

open Sys2Proof Sys2Proof.Machine

/-! Encoding and decoding. -/

/-- R92 to R95: decoding the two bytes of any instruction, whatever bytes follow them, gives that instruction with every
field (the unused `Y` of `8XY6` and `8XYE` included) and leaves the bytes that follow. Every `Instr` is well-formed. -/
def Obligations.DecodeOfEncodeIsTheInstruction : Prop :=
  ∀ (i : Instr) (rest : List Byte), decodeBytes (encodeBytes i ++ rest) = .ok (i, rest)

/-- R94, R95: an opcode that decodes is the encoding of what it decodes to, so no bit of it is dropped. -/
def Obligations.EncodeOfDecodeIsTheOpcode : Prop :=
  ∀ (op : Word) (i : Instr), decode op = .ok i → encode i = op

/-- R94 ("A row of rule R95 matches when `op & mask = match`"): an opcode decodes to an instruction of a row exactly when
the row's mask and match select it, and at most one row does. The masks of families 0, 5 and 9 are D20 (log 6). -/
def Obligations.DecodeFollowsTheOpcodeMap : Prop :=
  (∀ (op : Word) (o : Op), (∃ i, decode op = .ok i ∧ i.op = o) ↔ o.row.selects op = true) ∧
  (∀ (op : Word) (o o' : Op), o.row.selects op = true → o'.row.selects op = true → o = o')

/-- R98: a step that fetches an opcode of R98's list raises `UnsupportedInstruction` after the advance of `PC` and changes
nothing else; every opcode outside the list decodes. -/
def Obligations.IllegalOpcodesAreExactlyTheListedOnes : Prop :=
  (∀ s : State, s.halt = none → s.pc.toNat ≤ 4094 → illegalOpcode s.opcodeAtPc.toNat = true →
    Completes (step s) fun t =>
      (∃ a, t.halt = some ⟨.unsupportedInstruction, a⟩) ∧ t.pc = s.pc + 2 ∧ SameBut [.halt, .pc] s t) ∧
  (∀ op : Word, illegalOpcode op.toNat = false → ∃ i, decode op = .ok i)

/-- R95, sanity: one word of each of the sixteen families (top nibbles), written out from the opcode map, decodes to its
instruction. -/
def Obligations.SampleWordsDecode : Prop :=
  decode 0x00EE = .ok .ret ∧ decode 0x1234 = .ok (.jp 0x234) ∧ decode 0x2300 = .ok (.call 0x300) ∧
  decode 0x312A = .ok (.seImm 1 0x2A) ∧ decode 0x412A = .ok (.sneImm 1 0x2A) ∧ decode 0x5230 = .ok (.seReg 2 3) ∧
  decode 0x6A2F = .ok (.ldImm 0xA 0x2F) ∧ decode 0x7305 = .ok (.addImm 3 5) ∧ decode 0x8AB4 = .ok (.addReg 0xA 0xB) ∧
  decode 0x9230 = .ok (.sneReg 2 3) ∧ decode 0xA2F0 = .ok (.ldI 0x2F0) ∧ decode 0xB300 = .ok (.jpV0 0x300) ∧
  decode 0xC50F = .ok (.rnd 5 0x0F) ∧ decode 0xD125 = .ok (.drw 1 2 5) ∧ decode 0xE3A1 = .ok (.sknp 3) ∧
  decode 0xF465 = .ok (.ldRegs 4)

/-- R100: assembling the line that an instruction prints as gives the instruction back, with `Y` = 0 for `SHR` and `SHL`;
an operand list that does not fit assembles to nothing. The syntax is D22 (log 23). -/
def Obligations.AssemblyRoundTrips : Prop :=
  (∀ i : Instr, (∀ x y, i ≠ .shr x y) → (∀ x y, i ≠ .shl x y) → assemble i.line = some i) ∧
  (∀ x y : Nibble, assemble (Instr.shr x y).line = some (.shr x 0) ∧ assemble (Instr.shl x y).line = some (.shl x 0)) ∧
  (∀ l : AsmLine, l.wellFormed = false → assemble l = none)

/-! The step. -/

/-- R90: a step of a running machine whose two bytes at `PC` decode to an instruction is that instruction's execution with
`PC` advanced by 2, and nothing more. -/
def Obligations.StepRunsTheDecodedInstruction : Prop :=
  ∀ (s : State) (i : Instr), s.halt = none → s.pc.toNat ≤ 4094 → decode s.opcodeAtPc = .ok i →
    step s = exec i { s with pc := s.pc + 2 }

/-- R63: the fetch is the 16-bit value `MEM[PC] * 256 + MEM[PC+1]` when `PC + 1` is at most 4095, and otherwise the step
raises `MemoryOutOfBounds`, 4095 included, where the first byte exists. That such a fault leaves `PC` and all else but `HALT`
is D13 (log 11). -/
def Obligations.FetchIsBigEndianAndBounded : Prop :=
  ∀ s : State, s.halt = none →
    (s.pc.toNat + 1 ≤ 4095 → ∀ i : Instr,
      decode (BitVec.ofNat 16 ((s.byte s.pc.toNat).toNat * 256 + (s.byte (s.pc.toNat + 1)).toNat)) = .ok i →
      step s = exec i { s with pc := s.pc + 2 }) ∧
    (4095 < s.pc.toNat + 1 → Completes (step s) fun t => TookFault .memoryOutOfBounds s t)

/-- R13, R231: a running machine always has a next state: no instruction is refused, none stops the model, and every fault
is taken. -/
def Obligations.RunningMachineAlwaysSteps : Prop :=
  (∀ (i : Instr) (s : State), ∃ t, exec i s = .next t) ∧ (∀ s : State, s.halt = none → ∃ t, step s = .next t)

/-- R13: a step has exactly one of the outcomes `Next`, `Retry` and `Fault(cause)`: a fault exactly when the machine halts, with
that cause; a retry only under `LD Vx, K`, and then nothing at all has changed, so the same opcode is fetched again. -/
def Obligations.StepReportsItsOutcome : Prop :=
  ∀ (s t : State) (out : List Output), act .step s = some (t, out) →
    ∃ r, out = [.stepped r] ∧
      (∀ c, r = .fault c ↔ t.halt.map (·.cause) = some c) ∧
      (r = .retry → t = s ∧ ∃ x, decode s.opcodeAtPc = .ok (.ldVxK x))

/-- R237, R239 (D26, log 12): while `HALT` is not `None` no step and no tick happens, key events still act on the keys, every
action but reset keeps `HALT`, and a reset that succeeds clears it. -/
def Obligations.HaltedMachineOnlyReset : Prop :=
  ∀ (s : State) (r : FaultRecord), s.halt = some r →
    step s = .fault (.halted r) ∧ tick s = none ∧
    (∀ k, (keyRelease k s).key k = .released ∧ (s.key k = .released → (keyPress k s).key k = .pressed)) ∧
    (∀ a t out, act a s = some (t, out) → (∀ font rom, a ≠ .reset font rom) → t.halt = some r) ∧
    (∀ font rom t out, act (.reset font rom) s = some (t, out) → t.halt = none)

/-! The invariant. -/

/-- R26, R30: `State.Inv` holds after the model's reset. Its clause that memory is in canonical form is about the model's own
representation, a DESIGN CHOICE (log 24). -/
def Obligations.ResetMeetsTheInvariant : Prop := State.reset.Inv

/-- R26, R30: every step keeps `PC` at most 4350 and every live stack entry at most 4096; and it keeps memory in canonical
form, which is about the model's own representation, a DESIGN CHOICE (log 24), and no rule of the spec. -/
def Obligations.StepKeepsTheInvariant : Prop :=
  ∀ s t : State, s.Inv → step s = .next t → t.Inv

/-- R26, R30, R255: every execution, any sequence of steps, ticks, key events, snapshots and resets with any font and ROM,
keeps the invariant. That the actions are atomic and come in any order is D17 and the model's DESIGN CHOICE (log 8), that a
reset may come at any time is D23 (log 18), and canonical memory is the model's DESIGN CHOICE (log 24). -/
def Obligations.EveryExecutionKeepsTheInvariant : Prop :=
  ∀ (as : List Action) (s t : State) (out : List Output), s.Inv → run as s = some (t, out) → t.Inv

/-! Faults. -/

/-- R231: an instruction takes a fault exactly when the table of R231 says so, with that cause; no other instruction and no
other condition faults. The key cause is D8 (log 9), the checks before any write D13 (log 11). -/
def Obligations.InstructionsFaultExactlyAsListed : Prop :=
  ∀ (i : Instr) (s t : State), s.halt = none → exec i s = .next t → t.halt.map (·.cause) = expectedFault i s

/-- R236 (D13, log 11): faults are precise: of an instruction that faults nothing but the advance of `PC` has taken effect,
and the record holds the address of its opcode. -/
def Obligations.FaultsArePrecise : Prop :=
  (∀ (i : Instr) (s : State) (c : FaultCause), expectedFault i s = some c →
    exec i s = .next { s with halt := some ⟨c, s.pc - 2⟩ }) ∧
  (∀ s t : State, s.halt = none → step s = .next t → ∀ r, t.halt = some r →
    r.opcodeAt = s.pc ∧ (t = { s with halt := some r } ∨ t = { s with pc := s.pc + 2, halt := some r }))

/-! Control flow. -/

/-- R121, R32: `RET` puts the most recent stack entry into `PC` and releases it (it stays in the array); on an empty stack
it raises `StackUnderflow` with `SP`, `STACK` and `PC` unchanged. -/
def Obligations.ReturnPopsTheStack : Prop :=
  ∀ s : State,
    (0 < s.sp.val → Completes (exec .ret s) fun t =>
      t.pc = s.stackEntry (s.sp.val - 1) ∧ t.sp.val = s.sp.val - 1 ∧ SameBut [.pc, .sp] s t) ∧
    (s.sp.val = 0 → Completes (exec .ret s) fun t => TookFault .stackUnderflow s t)

/-- R123, R31: `CALL` pushes the advanced `PC` and jumps to `NNN`; with 16 entries in use it raises `StackOverflow` with
`SP`, `STACK` and `PC` unchanged. -/
def Obligations.CallPushesAndJumps : Prop :=
  ∀ (nnn : Addr) (s : State),
    (s.sp.val < 16 → Completes (exec (.call nnn) s) fun t =>
      t.pc.toNat = nnn.toNat ∧ t.sp.val = s.sp.val + 1 ∧ t.stackEntry s.sp.val = s.pc ∧
      (∀ j, j ≠ s.sp.val → t.stackEntry j = s.stackEntry j) ∧ SameBut [.pc, .sp, .stack] s t) ∧
    (s.sp.val = 16 → Completes (exec (.call nnn) s) fun t => TookFault .stackOverflow s t)

/-- R122, R129: `JP` puts `NNN` into `PC`, `JP V0` puts `NNN` plus `V[0]` there, not reduced; nothing else changes. -/
def Obligations.JumpsSetPc : Prop :=
  (∀ (nnn : Addr) (s : State), Completes (exec (.jp nnn) s) fun t => t.pc.toNat = nnn.toNat ∧ SameBut [.pc] s t) ∧
  (∀ (nnn : Addr) (s : State), Completes (exec (.jpV0 nnn) s) fun t =>
    t.pc.toNat = nnn.toNat + (s.reg 0#4).toNat ∧ SameBut [.pc] s t)

/-- R124 to R127: each conditional skip adds 2 to the advanced `PC` exactly on its condition; nothing else changes. -/
def Obligations.ConditionalSkips : Prop :=
  (∀ (x : Nibble) (nn : Byte) (s : State), Completes (exec (.seImm x nn) s) fun t =>
    t.pc = (if (s.reg x).toNat = nn.toNat then s.pc + 2 else s.pc) ∧ SameBut [.pc] s t) ∧
  (∀ (x : Nibble) (nn : Byte) (s : State), Completes (exec (.sneImm x nn) s) fun t =>
    t.pc = (if (s.reg x).toNat = nn.toNat then s.pc else s.pc + 2) ∧ SameBut [.pc] s t) ∧
  (∀ (x y : Nibble) (s : State), Completes (exec (.seReg x y) s) fun t =>
    t.pc = (if (s.reg x).toNat = (s.reg y).toNat then s.pc + 2 else s.pc) ∧ SameBut [.pc] s t) ∧
  (∀ (x y : Nibble) (s : State), Completes (exec (.sneReg x y) s) fun t =>
    t.pc = (if (s.reg x).toNat = (s.reg y).toNat then s.pc else s.pc + 2) ∧ SameBut [.pc] s t)

/-- R30: `SP` stays in 0 to 16, only `CALL` and `RET` touch `STACK` and `SP`, and overflow and underflow are fatal. -/
def Obligations.OnlyCallAndReturnTouchTheStack : Prop :=
  (∀ (i : Instr) (s t : State), exec i s = .next t →
    t.sp.val ≤ 16 ∧ (i.op ≠ .call → i.op ≠ .ret → t.stack = s.stack ∧ t.sp = s.sp)) ∧
  (∀ (nnn : Addr) (s : State), s.sp.val = 16 → Completes (exec (.call nnn) s) fun t => TookFault .stackOverflow s t) ∧
  (∀ s : State, s.sp.val = 0 → Completes (exec .ret s) fun t => TookFault .stackUnderflow s t)

/-! Loads, arithmetic, logic. -/

/-- R140, R141: `LD Vx, byte` and `ADD Vx, byte` (modulo 256, no carry flag) write `V[X]` alone, `VF` included when `X` = 15. -/
def Obligations.ImmediateLoadAndAdd : Prop :=
  (∀ (x : Nibble) (nn : Byte) (s : State), Completes (exec (.ldImm x nn) s) fun t =>
    t.reg x = nn ∧ RegsSameBut [x] s t ∧ SameBut [.v] s t) ∧
  (∀ (x : Nibble) (nn : Byte) (s : State), Completes (exec (.addImm x nn) s) fun t =>
    (t.reg x).toNat = ((s.reg x).toNat + nn.toNat) % 256 ∧ RegsSameBut [x] s t ∧ SameBut [.v] s t)

/-- R142 to R145: copy, or, and, exclusive or write `V[X]` alone; `VF` is untouched unless `X` = 15. -/
def Obligations.CopyAndLogic : Prop :=
  (∀ (x y : Nibble) (s : State), Completes (exec (.ldReg x y) s) fun t =>
    t.reg x = s.reg y ∧ RegsSameBut [x] s t ∧ SameBut [.v] s t) ∧
  (∀ (x y : Nibble) (s : State), Completes (exec (.or x y) s) fun t =>
    (∀ k, (t.reg x).getLsbD k = ((s.reg x).getLsbD k || (s.reg y).getLsbD k)) ∧ RegsSameBut [x] s t ∧ SameBut [.v] s t) ∧
  (∀ (x y : Nibble) (s : State), Completes (exec (.and x y) s) fun t =>
    (∀ k, (t.reg x).getLsbD k = ((s.reg x).getLsbD k && (s.reg y).getLsbD k)) ∧ RegsSameBut [x] s t ∧ SameBut [.v] s t) ∧
  (∀ (x y : Nibble) (s : State), Completes (exec (.xor x y) s) fun t =>
    (∀ k, (t.reg x).getLsbD k = ((s.reg x).getLsbD k != (s.reg y).getLsbD k)) ∧ RegsSameBut [x] s t ∧ SameBut [.v] s t)

/-- R147, R148, R150 where neither register is `VF`: the flag is the carry or the inverse of the borrow, the result is taken
modulo 256, and no other register changes. The forms with `VF` are `FlagFirstWhenVfIsAnOperand`. -/
def Obligations.AddAndSubtractSetTheFlag : Prop :=
  ∀ (x y : Nibble) (s : State), x ≠ 15#4 → y ≠ 15#4 →
    (Completes (exec (.addReg x y) s) fun t =>
      t.reg 15#4 = (if (s.reg x).toNat + (s.reg y).toNat > 255 then 1#8 else 0#8) ∧
      (t.reg x).toNat = ((s.reg x).toNat + (s.reg y).toNat) % 256 ∧ RegsSameBut [x, 15#4] s t ∧ SameBut [.v] s t) ∧
    (Completes (exec (.sub x y) s) fun t =>
      t.reg 15#4 = (if (s.reg x).toNat ≥ (s.reg y).toNat then 1#8 else 0#8) ∧
      (t.reg x).toNat = ((s.reg x).toNat + 256 - (s.reg y).toNat) % 256 ∧ RegsSameBut [x, 15#4] s t ∧ SameBut [.v] s t) ∧
    (Completes (exec (.subn x y) s) fun t =>
      t.reg 15#4 = (if (s.reg y).toNat ≥ (s.reg x).toNat then 1#8 else 0#8) ∧
      (t.reg x).toNat = ((s.reg y).toNat + 256 - (s.reg x).toNat) % 256 ∧ RegsSameBut [x, 15#4] s t ∧ SameBut [.v] s t)

/-- R149, R151, R146: the shifts by one put the bit shifted out into `VF` and the shifted value into `V[X]`; with `X` = 15
the flag is written first and shifted (D7, log 7), so `SHR` leaves 0 and `SHL` leaves twice the bit. `Y` is never used. -/
def Obligations.ShiftsSetTheFlag : Prop :=
  (∀ (x y : Nibble) (s : State), x ≠ 15#4 → Completes (exec (.shr x y) s) fun t =>
    (t.reg 15#4).toNat = (s.reg x).toNat % 2 ∧ (t.reg x).toNat = (s.reg x).toNat / 2 ∧
    RegsSameBut [x, 15#4] s t ∧ SameBut [.v] s t) ∧
  (∀ (x y : Nibble) (s : State), x ≠ 15#4 → Completes (exec (.shl x y) s) fun t =>
    (t.reg 15#4).toNat = (s.reg x).toNat / 128 ∧ (t.reg x).toNat = (s.reg x).toNat * 2 % 256 ∧
    RegsSameBut [x, 15#4] s t ∧ SameBut [.v] s t) ∧
  (∀ (y : Nibble) (s : State), Completes (exec (.shr 15#4 y) s) fun t =>
    (t.reg 15#4).toNat = 0 ∧ RegsSameBut [15#4] s t ∧ SameBut [.v] s t) ∧
  (∀ (y : Nibble) (s : State), Completes (exec (.shl 15#4 y) s) fun t =>
    (t.reg 15#4).toNat = (s.reg 15#4).toNat / 128 * 2 ∧ RegsSameBut [15#4] s t ∧ SameBut [.v] s t)

/-- R146's table (D7, log 7): `ADD`, `SUB` and `SUBN` when `X` or `Y` is 15: the flag `f`, computed from the entry values,
goes to `VF` first, and the result reads the new `VF`. -/
def Obligations.FlagFirstWhenVfIsAnOperand : Prop :=
  (∀ (x : Nibble) (s : State), x ≠ 15#4 →
    (Completes (exec (.addReg x 15#4) s) fun t =>
      let f := if (s.reg x).toNat + (s.reg 15#4).toNat > 255 then 1 else 0
      (t.reg 15#4).toNat = f ∧ (t.reg x).toNat = ((s.reg x).toNat + f) % 256 ∧ RegsSameBut [x, 15#4] s t ∧ SameBut [.v] s t) ∧
    (Completes (exec (.sub x 15#4) s) fun t =>
      let f := if (s.reg x).toNat ≥ (s.reg 15#4).toNat then 1 else 0
      (t.reg 15#4).toNat = f ∧ (t.reg x).toNat = ((s.reg x).toNat + 256 - f) % 256 ∧ RegsSameBut [x, 15#4] s t ∧
      SameBut [.v] s t) ∧
    (Completes (exec (.subn x 15#4) s) fun t =>
      let f := if (s.reg 15#4).toNat ≥ (s.reg x).toNat then 1 else 0
      (t.reg 15#4).toNat = f ∧ (t.reg x).toNat = (f + 256 - (s.reg x).toNat) % 256 ∧ RegsSameBut [x, 15#4] s t ∧
      SameBut [.v] s t)) ∧
  (∀ (y : Nibble) (s : State), y ≠ 15#4 →
    (Completes (exec (.addReg 15#4 y) s) fun t =>
      let f := if (s.reg 15#4).toNat + (s.reg y).toNat > 255 then 1 else 0
      (t.reg 15#4).toNat = (f + (s.reg y).toNat) % 256 ∧ RegsSameBut [15#4] s t ∧ SameBut [.v] s t) ∧
    (Completes (exec (.sub 15#4 y) s) fun t =>
      let f := if (s.reg 15#4).toNat ≥ (s.reg y).toNat then 1 else 0
      (t.reg 15#4).toNat = (f + 256 - (s.reg y).toNat) % 256 ∧ RegsSameBut [15#4] s t ∧ SameBut [.v] s t) ∧
    (Completes (exec (.subn 15#4 y) s) fun t =>
      let f := if (s.reg y).toNat ≥ (s.reg 15#4).toNat then 1 else 0
      (t.reg 15#4).toNat = ((s.reg y).toNat + 256 - f) % 256 ∧ RegsSameBut [15#4] s t ∧ SameBut [.v] s t)) ∧
  (∀ s : State,
    (Completes (exec (.addReg 15#4 15#4) s) fun t =>
      (t.reg 15#4).toNat = (if 2 * (s.reg 15#4).toNat > 255 then 2 else 0) ∧ RegsSameBut [15#4] s t ∧ SameBut [.v] s t) ∧
    (Completes (exec (.sub 15#4 15#4) s) fun t => (t.reg 15#4).toNat = 0 ∧ RegsSameBut [15#4] s t ∧ SameBut [.v] s t) ∧
    (Completes (exec (.subn 15#4 15#4) s) fun t => (t.reg 15#4).toNat = 0 ∧ RegsSameBut [15#4] s t ∧ SameBut [.v] s t))

/-- R153 (D12, log 4): `RND` takes one draw, whatever it is, and writes its bits under the mask `NN` to `V[X]` alone, so a
bit that is 0 in `NN` is 0 and the result is at most `NN`. -/
def Obligations.RandomByteIsMasked : Prop :=
  ∀ (x : Nibble) (nn : Byte) (s : State), Completes (exec (.rnd x nn) s) fun t =>
    (∀ k, (t.reg x).getLsbD k = ((Config.rnd s.draws).getLsbD k && nn.getLsbD k)) ∧ (t.reg x).toNat ≤ nn.toNat ∧
    t.draws = s.draws + 1 ∧ RegsSameBut [x] s t ∧ SameBut [.v, .draws] s t

/-- R22: only the six flag-writing instructions change `VF` when their `X` field is not 15, and with `X` other than 15 each
of the six leaves 0 or 1 there (the order of the writes when `X` is 15 is D7, log 7). -/
def Obligations.OnlySixInstructionsWriteTheFlag : Prop :=
  ∀ (i : Instr) (s t : State), exec i s = .next t → xField i ≠ some 15#4 →
    (i.op ∉ [Op.addReg, .sub, .shr, .subn, .shl, .drw] → t.reg 15#4 = s.reg 15#4) ∧
    (i.op ∈ [Op.addReg, .sub, .shr, .subn, .shl] → t.reg 15#4 = 0#8 ∨ t.reg 15#4 = 1#8) ∧
    (i.op = .drw → expectedFault i s = none → t.reg 15#4 = 0#8 ∨ t.reg 15#4 = 1#8)

/-! Index register and memory. -/

/-- R61, R62: a one-byte store to an address that exists is read back and leaves every other byte alone, wherever it lands;
at 4096 and beyond both accesses fail with `MemoryOutOfBounds`. Memory is canonical (`StepKeepsTheInvariant`). -/
def Obligations.MemoryReadsAndWritesOneByte : Prop :=
  ∀ (s : State) (a : Nat) (v : Byte), s.Inv →
    (a < 4096 → s.loadBytes a 1 = .ok [s.byte a] ∧
      ∃ t, s.storeBytes a [v] = .ok t ∧ t.byte a = v ∧ (∀ b, b ≠ a → t.byte b = s.byte b) ∧ SameBut [.mem] s t) ∧
    (4096 ≤ a → s.loadBytes a 1 = .error .memoryOutOfBounds ∧ s.storeBytes a [v] = .error .memoryOutOfBounds)

/-- R171: `LD I, addr` puts `NNN` into `I`; nothing else changes. -/
def Obligations.LoadIndex : Prop :=
  ∀ (nnn : Addr) (s : State), Completes (exec (.ldI nnn) s) fun t => t.i.toNat = nnn.toNat ∧ SameBut [.i] s t

/-- R172 (D14, log 13) and R173 (D24, log 14): `ADD I, Vx` adds modulo 65536 and sets no flag; `LD F, Vx` puts
`5 * V[X]` into `I` with the whole of `V[X]`; nothing else changes. -/
def Obligations.IndexArithmetic : Prop :=
  (∀ (x : Nibble) (s : State), Completes (exec (.addI x) s) fun t =>
    t.i.toNat = (s.i.toNat + (s.reg x).toNat) % 65536 ∧ SameBut [.i] s t) ∧
  (∀ (x : Nibble) (s : State), Completes (exec (.ldF x) s) fun t => t.i.toNat = 5 * (s.reg x).toNat ∧ SameBut [.i] s t)

/-- R174: `LD B, Vx` stores the hundreds, tens and ones digits at `I`, `I+1`, `I+2` and nothing else; with `I` above 4093 it
raises `MemoryOutOfBounds` and writes nothing. -/
def Obligations.DecimalDigitsAreStored : Prop :=
  ∀ (x : Nibble) (s : State), s.Inv →
    (s.i.toNat ≤ 4093 → Completes (exec (.ldB x) s) fun t =>
      (t.byte s.i.toNat).toNat = (s.reg x).toNat / 100 ∧
      (t.byte (s.i.toNat + 1)).toNat = (s.reg x).toNat / 10 % 10 ∧
      (t.byte (s.i.toNat + 2)).toNat = (s.reg x).toNat % 10 ∧
      (∀ a, (a < s.i.toNat ∨ s.i.toNat + 2 < a) → t.byte a = s.byte a) ∧ SameBut [.mem] s t) ∧
    (4093 < s.i.toNat → Completes (exec (.ldB x) s) fun t => TookFault .memoryOutOfBounds s t)

/-- R175: `LD [I], Vx` stores `V[0]` to `V[X]` at `I` to `I+X`, no other byte, and adds `X+1` to `I`; past 4095 it raises
`MemoryOutOfBounds`, no byte is written and `I` is unchanged. -/
def Obligations.RegistersAreStored : Prop :=
  ∀ (x : Nibble) (s : State), s.Inv →
    (s.i.toNat + x.toNat ≤ 4095 → Completes (exec (.stRegs x) s) fun t =>
      (∀ k : Nibble, k.toNat ≤ x.toNat → t.byte (s.i.toNat + k.toNat) = s.reg k) ∧
      (∀ a, (a < s.i.toNat ∨ s.i.toNat + x.toNat < a) → t.byte a = s.byte a) ∧
      t.i.toNat = s.i.toNat + x.toNat + 1 ∧ SameBut [.mem, .i] s t) ∧
    (4095 < s.i.toNat + x.toNat → Completes (exec (.stRegs x) s) fun t => TookFault .memoryOutOfBounds s t)

/-- R176: `LD Vx, [I]` loads `V[0]` to `V[X]` from `I` to `I+X`, no other register, and adds `X+1` to `I`; past 4095 it raises
`MemoryOutOfBounds` and no register and not `I` changes. -/
def Obligations.RegistersAreLoaded : Prop :=
  ∀ (x : Nibble) (s : State),
    (s.i.toNat + x.toNat ≤ 4095 → Completes (exec (.ldRegs x) s) fun t =>
      (∀ k : Nibble, k.toNat ≤ x.toNat → t.reg k = s.byte (s.i.toNat + k.toNat)) ∧
      (∀ k : Nibble, x.toNat < k.toNat → t.reg k = s.reg k) ∧
      t.i.toNat = s.i.toNat + x.toNat + 1 ∧ SameBut [.v, .i] s t) ∧
    (4095 < s.i.toNat + x.toNat → Completes (exec (.ldRegs x) s) fun t => TookFault .memoryOutOfBounds s t)

/-- R73: bytes that `LD [I], Vx` has stored are what the next fetch from their address gives: if they are the two bytes of an
instruction and `PC` points at them, the next step runs it. -/
def Obligations.StoredBytesAreFetched : Prop :=
  ∀ (x k : Nibble) (s t : State) (i : Instr), s.Inv → s.halt = none → s.i.toNat + x.toNat ≤ 4095 → k.toNat + 1 ≤ x.toNat →
    decode (wordOfBytes (s.reg k) (s.reg (k + 1))) = .ok i → exec (.stRegs x) s = .next t →
    s.pc.toNat = s.i.toNat + k.toNat → step t = exec i { t with pc := t.pc + 2 }

/-- R21, R22, R24, R30, R33, R34, R36, R68, R120, R231: for every piece of state, the instructions that can change it: `V`, `I`,
memory, the frame buffer, the timers, `PC` beyond its advance, `STACK` and `SP`, `KEY`, and `HALT` (whose key cause is D8, log 9,
and whose mechanism is D13, log 11); and only `RND` takes a draw (log 4). -/
def Obligations.EachPieceHasItsWriters : Prop :=
  ∀ (i : Instr) (s t : State), exec i s = .next t →
    (i.op ∉ [Op.ldImm, .addImm, .ldReg, .or, .and, .xor, .addReg, .sub, .shr, .subn, .shl, .rnd, .drw, .ldVxDt, .ldVxK,
      .ldRegs] → ∀ y, t.reg y = s.reg y) ∧
    (i.op ∉ [Op.ldI, .addI, .ldF, .stRegs, .ldRegs] → t.i = s.i) ∧
    (i.op ∉ [Op.ldB, .stRegs] → ∀ a, t.byte a = s.byte a) ∧
    (i.op ∉ [Op.cls, .drw] → t.fb = s.fb) ∧
    (i.op ≠ .ldDtVx → t.dt = s.dt) ∧
    (i.op ≠ .ldStVx → t.st = s.st) ∧
    (i.op ∉ [Op.ret, .jp, .call, .seImm, .sneImm, .seReg, .sneReg, .jpV0, .skp, .sknp, .ldVxK] → t.pc = s.pc) ∧
    (i.op ∉ [Op.call, .ret] → t.stack = s.stack ∧ t.sp = s.sp) ∧
    (i.op ≠ .ldVxK → ∀ k, t.key k = s.key k) ∧
    (i.op ∉ [Op.ret, .call, .drw, .skp, .sknp, .ldB, .stRegs, .ldRegs] → t.halt = s.halt) ∧
    (i.op ≠ .rnd → t.draws = s.draws)

/-! Display. -/

/-- R191: `CLS` turns every cell off and changes nothing else; `VF` is not written. -/
def Obligations.ClearTurnsEveryCellOff : Prop :=
  ∀ s : State, Completes (exec .cls s) fun t => (∀ cx cy, t.cell cx cy = false) ∧ SameBut [.fb] s t

/-- R193 to R195, with the cell order D5, the bit order D4 and the per-cell wrap D6 (log 15): `DRW` flips exactly the cells
under the sprite's 1 bits, and `VF` is 1 if one of them was on and 0 otherwise, whatever `X`, `Y` and `N` are; no other
register and nothing else changes. -/
def Obligations.SpriteFlipsTheCellsItCovers : Prop :=
  ∀ (x y n : Nibble) (s : State), (n.toNat = 0 ∨ s.i.toNat + n.toNat ≤ 4096) →
    Completes (exec (.drw x y n) s) fun t =>
      (∀ cx cy, cx < 64 → cy < 32 → t.cell cx cy = (s.cell cx cy != s.spriteCovers x y n cx cy)) ∧
      ((∃ cx cy, cx < 64 ∧ cy < 32 ∧ s.spriteCovers x y n cx cy = true ∧ s.cell cx cy = true) → t.reg 15#4 = 1#8) ∧
      ((∀ cx cy, cx < 64 → cy < 32 → s.spriteCovers x y n cx cy = true → s.cell cx cy = false) → t.reg 15#4 = 0#8) ∧
      RegsSameBut [15#4] s t ∧ SameBut [.fb, .v] s t

/-- R193, R65 (D13, log 11): a sprite with a byte at 4096 or beyond raises `MemoryOutOfBounds`, and `FB` and `VF` are
unchanged. -/
def Obligations.SpritePastMemoryFaults : Prop :=
  ∀ (x y n : Nibble) (s : State), 0 < n.toNat → 4096 < s.i.toNat + n.toNat →
    Completes (exec (.drw x y n) s) fun t => TookFault .memoryOutOfBounds s t

/-- R193's corner case (the source's testable property): drawing the same sprite twice at the same place gives the frame
buffer back, and the second draw collides when a touched cell was off before the first. With `X` or `Y` = 15 the first draw
writes the coordinate, so the two draws are at different places; `SpriteFlipsTheCellsItCovers` covers those forms. Which cells
the sprite touches rests on the bit order D4, the cell order D5 and the per-cell wrap D6 (log 15). -/
def Obligations.DrawingTwiceErases : Prop :=
  ∀ (x y n : Nibble) (s t u : State), (n.toNat = 0 ∨ s.i.toNat + n.toNat ≤ 4096) → x ≠ 15#4 → y ≠ 15#4 →
    exec (.drw x y n) s = .next t → exec (.drw x y n) t = .next u →
    u.fb = s.fb ∧
    ((∃ cx cy, cx < 64 ∧ cy < 32 ∧ s.spriteCovers x y n cx cy = true ∧ s.cell cx cy = false) → u.reg 15#4 = 1#8)

/-! Keys and timers. -/

/-- R210 to R213 (D8, D9, log 9, log 10): with `V[X]` at most 15, `SKP` skips exactly when that key is `Pressed` and `SKNP`
exactly when it is not, a `Consumed` key counting as not pressed, and nothing else changes; above 15 both raise
`KeyIndexOutOfRange`. -/
def Obligations.KeySkips : Prop :=
  ∀ (x : Nibble) (s : State),
    ((s.reg x).toNat ≤ 15 →
      (Completes (exec (.skp x) s) fun t =>
        t.pc = (if s.key (BitVec.ofNat 4 (s.reg x).toNat) = .pressed then s.pc + 2 else s.pc) ∧ SameBut [.pc] s t) ∧
      (Completes (exec (.sknp x) s) fun t =>
        t.pc = (if s.key (BitVec.ofNat 4 (s.reg x).toNat) = .pressed then s.pc else s.pc + 2) ∧ SameBut [.pc] s t)) ∧
    (15 < (s.reg x).toNat →
      (Completes (exec (.skp x) s) fun t => TookFault .keyIndexOutOfRange s t) ∧
      (Completes (exec (.sknp x) s) fun t => TookFault .keyIndexOutOfRange s t))

/-- R214 (D10, D11, log 10): when `k` is the lowest `Pressed` key, `LD Vx, K` writes its number to `V[X]`, marks it `Consumed`,
and changes nothing else. -/
def Obligations.KeyWaitTakesTheLowestPressedKey : Prop :=
  ∀ (x k : Nibble) (s : State), s.key k = .pressed → (∀ j : Nibble, j.toNat < k.toNat → s.key j ≠ .pressed) →
    Completes (exec (.ldVxK x) s) fun t =>
      (t.reg x).toNat = k.toNat ∧ t.key k = .consumed ∧ (∀ j, j ≠ k → t.key j = s.key j) ∧
      RegsSameBut [x] s t ∧ SameBut [.v, .keys] s t

/-- R13, R214: a step that fetches `LD Vx, K` with no key `Pressed` changes nothing at all and reports `Retry`. -/
def Obligations.KeyWaitRetryChangesNothing : Prop :=
  ∀ (x : Nibble) (s : State), s.halt = none → s.pc.toNat ≤ 4094 → decode s.opcodeAtPc = .ok (.ldVxK x) →
    (∀ j, s.key j ≠ .pressed) → act .step s = some (s, [.stepped .retry])

/-- R214, R257 (the source's "a second FX0A issued before release must not observe the same press"): once `LD Vx, K` has taken
the only `Pressed` key, no `LD Vx, K` finds a key until a press event; after a release and a press the next one takes it
again. That a press before the `LD Vx, K` runs satisfies it is the level test D11 (log 10). -/
def Obligations.OnePressSatisfiesOneWait : Prop :=
  ∀ (x x' k : Nibble) (s t : State), s.key k = .pressed → (∀ j, j ≠ k → s.key j ≠ .pressed) →
    exec (.ldVxK x) s = .next t →
    exec (.ldVxK x') t = .next { t with pc := t.pc - 2 } ∧
    (Completes (exec (.ldVxK x') (keyPress k (keyRelease k t))) fun u => (u.reg x').toNat = k.toNat ∧ u.key k = .consumed)

/-- R37 (D25, log 16): in any action but reset a key only goes from `Released` to `Pressed` by its press event, from `Pressed`
to `Consumed` by a step, and to `Released` by its release event. -/
def Obligations.KeyTransitionsAreTheListedOnes : Prop :=
  ∀ (a : Action) (s t : State) (out : List Output) (j : Nibble), act a s = some (t, out) →
    (∀ font rom, a ≠ .reset font rom) → t.key j ≠ s.key j →
    (s.key j = .released ∧ t.key j = .pressed ∧ a = .keyPress j) ∨
    (s.key j = .pressed ∧ t.key j = .consumed ∧ a = .step) ∨
    (t.key j = .released ∧ a = .keyRelease j)

/-- R254: a release event makes the key `Released` from any state and changes nothing else; that it does so in a halted machine
too is D26 (log 12). -/
def Obligations.ReleaseAlwaysReleases : Prop :=
  ∀ (k : Nibble) (s : State), ∃ t, act (.keyRelease k) s = some (t, []) ∧ t.key k = .released ∧
    (∀ j, j ≠ k → t.key j = s.key j) ∧ SameBut [.keys] s t

/-- R215, R216: `LD Vx, DT` copies the delay timer to `V[X]` alone, `LD DT, Vx` copies `V[X]` to the delay timer alone. -/
def Obligations.DelayTimerReadAndWrite : Prop :=
  (∀ (x : Nibble) (s : State), Completes (exec (.ldVxDt x) s) fun t =>
    t.reg x = s.dt ∧ RegsSameBut [x] s t ∧ SameBut [.v] s t) ∧
  (∀ (x : Nibble) (s : State), Completes (exec (.ldDtVx x) s) fun t => t.dt = s.reg x ∧ SameBut [.dt] s t)

/-- R217 (D16, log 17): `LD ST, Vx` copies `V[X]` to the sound timer alone, and the step that runs it emits no beep. -/
def Obligations.SoundTimerWrite : Prop :=
  (∀ (x : Nibble) (s : State), Completes (exec (.ldStVx x) s) fun t => t.st = s.reg x ∧ SameBut [.st] s t) ∧
  (∀ (x : Nibble) (s : State), s.halt = none → s.pc.toNat ≤ 4094 → decode s.opcodeAtPc = .ok (.ldStVx x) →
    ∃ t, act .step s = some (t, [.stepped .next]) ∧ t.st = s.reg x)

/-- R251: a tick of a running machine lowers both timers by 1, floored at 0, touches nothing else, and requests a beep exactly
when `ST` was 1; a halted machine has no tick. -/
def Obligations.TickCountsBothTimersDown : Prop :=
  ∀ s : State,
    (s.halt = none → ∃ t b, tick s = some (t, b) ∧ t.dt.toNat = s.dt.toNat - 1 ∧ t.st.toNat = s.st.toNat - 1 ∧
      (b = true ↔ s.st.toNat = 1) ∧ SameBut [.dt, .st] s t) ∧
    (s.halt ≠ none → tick s = none)

/-- R252: a beep request is emitted exactly when a tick takes `ST` from 1 to 0, once, and by no other action. -/
def Obligations.BeepExactlyWhenTheSoundTimerEnds : Prop :=
  ∀ (a : Action) (s t : State) (out : List Output), act a s = some (t, out) →
    out.count .beep = (if a = .tick ∧ s.st.toNat = 1 ∧ t.st.toNat = 0 then 1 else 0)

/-- The source's timer property (R251, S8 of 95_test_vectors.md): after `n` ticks each timer holds its value less `n`, never
below 0, and exactly one beep has been emitted if `ST` started between 1 and `n`, none otherwise. -/
def Obligations.CountdownReachesZeroWithOneBeep : Prop :=
  ∀ (n : Nat) (s : State), s.halt = none →
    ∃ t out, run (List.replicate n .tick) s = some (t, out) ∧ t.dt.toNat = s.dt.toNat - n ∧ t.st.toNat = s.st.toNat - n ∧
      out.count .beep = (if 0 < s.st.toNat ∧ s.st.toNat ≤ n then 1 else 0) ∧ SameBut [.dt, .st] s t

/-! The agents together. -/

/-- R263, R253 (D25, log 16), R258: what each action of the environment can touch: a tick the timers, a press event its own
key and only from `Released`, a snapshot nothing, and the snapshot returns every cell as it stands. -/
def Obligations.EnvironmentTouchesOnlyItsOwn : Prop :=
  ∀ s : State,
    (∀ t out, act .tick s = some (t, out) → SameBut [.dt, .st] s t) ∧
    (∀ k, ∃ t, act (.keyPress k) s = some (t, []) ∧ (s.key k = .released → t.key k = .pressed) ∧
      (s.key k ≠ .released → t.key k = s.key k) ∧ (∀ j, j ≠ k → t.key j = s.key j) ∧ SameBut [.keys] s t) ∧
    (∃ cells, act .snapshot s = some (s, [.frame cells]) ∧
      ∀ cx cy, cx < 64 → cy < 32 → cells.toList.getD (cy * 64 + cx) false = s.cell cx cy)

/-- R241 (D21, log 20): a program learns of the keys and timers only by `SKP`, `SKNP`, `LD Vx, K` and `LD Vx, DT`: two states that
differ only in keys and timers give, under any other instruction, states that differ only there. Memory is canonical in
both (`StepKeepsTheInvariant`). -/
def Obligations.OnlyPollingLearnsOfKeysAndTimers : Prop :=
  ∀ (i : Instr) (s s' t : State), i.op ∉ [Op.skp, .sknp, .ldVxK, .ldVxDt] → s.Inv → s'.Inv →
    SameBut [.keys, .dt, .st] s s' → exec i s = .next t →
    Completes (exec i s') fun t' => SameBut [.keys, .dt, .st] t t'

/-! Reset, boot, the end of a run. -/

/-- R283: a ROM image of 0 to 3584 bytes is accepted, byte `k` of it stands at `0x200 + k`, and the first fetch is from
0x200. -/
def Obligations.ResetPlacesTheRomImage : Prop :=
  ∀ (font : Vector Byte 80) (rom : List Byte) (s : State), rom.length ≤ 3584 →
    ∃ t, resetWith font rom s = some t ∧ t.pc.toNat = 0x200 ∧ ∀ (k : Nat) (hk : k < rom.length), t.byte (0x200 + k) = rom[k]

/-- R42 (D1, D2, D13, log 1, log 2), R280, R284 (D23, log 18): what reset leaves: the font at 0, zero in every byte outside
font and ROM, every register, timer and cell 0, an empty stack, every key `Released`, not halted; an image longer than 3584
bytes has no successor. -/
def Obligations.ResetLeavesTheListedValues : Prop :=
  ∀ (font : Vector Byte 80) (rom : List Byte) (s : State),
    (rom.length ≤ 3584 → ∃ t, resetWith font rom s = some t ∧ t.pc.toNat = 0x200 ∧ t.i.toNat = 0 ∧ t.sp.val = 0 ∧
      t.dt.toNat = 0 ∧ t.st.toNat = 0 ∧ t.halt = none ∧ (∀ x, (t.reg x).toNat = 0) ∧ (∀ k, t.key k = .released) ∧
      (∀ j, (t.stackEntry j).toNat = 0) ∧ (∀ cx cy, t.cell cx cy = false) ∧
      (∀ (k : Nat) (hk : k < 80), t.byte k = font[k]) ∧
      (∀ a, 80 ≤ a → (a < 0x200 ∨ 0x200 + rom.length ≤ a) → (t.byte a).toNat = 0)) ∧
    (3584 < rom.length → resetWith font rom s = none)

/-- R286: after a reset with an empty ROM the first step takes `UnsupportedInstruction` at 0x200. -/
def Obligations.EmptyRomHaltsAtOnce : Prop :=
  ∀ (font : Vector Byte 80) (s t : State), resetWith font [] s = some t →
    step t = .next { t with pc := 0x202, halt := some ⟨.unsupportedInstruction, 0x200⟩ }

/-- The model's own `withFetchWord` (log 5): the two bytes of an instruction placed at `PC` are what the next step runs. -/
def Obligations.PlacedWordIsRunNext : Prop :=
  ∀ (i : Instr) (s : State), s.Inv → s.halt = none → s.pc.toNat ≤ 4094 →
    step (s.withFetchWord 16 (encode i).toNat) =
      exec i { s.withFetchWord 16 (encode i).toNat with pc := s.pc + 2 }

/-- R292 (D28, log 19): in the state of a completed run, the opcode at `PC` being a jump to `PC`, a step changes nothing. -/
def Obligations.CompletedRunStaysPut : Prop :=
  ∀ s : State, s.completed → step s = .next s

/-- R256, R251, R293 (a): in a fair execution the delay timer reaches 0 and stays there, once the machine is not halted, not
reset, and runs no instruction that changes the timer: ticks recur for ever. That the number of steps between ticks is free
is D17 and D18, and the form of executions is the model's DESIGN CHOICE (log 8). -/
def Obligations.FairTicksRunTheDelayTimerOut : Prop :=
  ∀ (states : Nat → State) (actions : Nat → Action) (n : Nat),
    IsExecution states actions → Fair states actions → RunsFrom states n →
    (∀ m, n ≤ m → ∀ font rom, actions m ≠ .reset font rom) →
    (∀ m, n ≤ m → actions m = .step → (states (m + 1)).dt = (states m).dt) →
    ∃ k, n ≤ k ∧ ∀ m, k ≤ m → (states m).dt.toNat = 0
end

