-- ==== Sys2Proof/Laws/Agents.lean ====
section
/-! SUPPORT. What each action can do, for proofs to cite instead of unfolding `act` (spec/60_exceptions.md R251 to R263). -/

namespace Sys2Proof.Machine

/-- A timer's decrement as a number: floored at 0 (R251). -/
theorem toNat_countDown (b : Byte) : (countDown b).toNat = b.toNat - 1 := by
  unfold countDown
  split
  · subst b; rfl
  · rename_i h
    have hb : b.toNat ≠ 0 := fun h' => h (BitVec.eq_of_toNat_eq h')
    have := b.isLt
    rw [BitVec.toNat_sub]
    simp
    omega

@[simp] theorem dt_tickTimers (s : State) : s.tickTimers.dt = countDown s.dt := rfl

@[simp] theorem st_tickTimers (s : State) : s.tickTimers.st = countDown s.st := rfl

@[simp] theorem halt_tickTimers (s : State) : s.tickTimers.halt = s.halt := rfl

/-- The beep's condition as a number (R252). -/
theorem beeps_iff (s : State) : s.beeps = true ↔ s.st.toNat = 1 := by
  rw [State.beeps, beq_iff_eq]
  exact ⟨fun h => by rw [h]; rfl, fun h => BitVec.eq_of_toNat_eq h⟩

/-- A press touches the keys alone. -/
theorem keyPress_eq (k : Nibble) (s : State) : ∃ ks, keyPress k s = { s with keys := ks } := by
  unfold keyPress
  split
  · exact ⟨_, rfl⟩
  · exact ⟨s.keys, rfl⟩

/-- Every action that happens is one of the six, with its state and its outputs (R255, R263). -/
theorem act_cases {a : Action} {s t : State} {out : List Output} (h : act a s = some (t, out)) :
    (a = .step ∧ step s = .next t ∧ out = [.stepped (stepResult s t)]) ∨
    (a = .tick ∧ s.halt = none ∧ t = s.tickTimers ∧ out = if s.beeps then [.beep] else []) ∨
    (∃ k, a = .keyPress k ∧ t = keyPress k s ∧ out = []) ∨
    (∃ k, a = .keyRelease k ∧ t = keyRelease k s ∧ out = []) ∨
    (a = .snapshot ∧ t = s ∧ out = [.frame (snapshot s)]) ∨
    (∃ font rom, a = .reset font rom ∧ resetWith font rom s = some t ∧ out = []) := by
  cases a with
  | step =>
    simp only [act] at h
    split at h <;> cases h
    exact .inl ⟨rfl, ‹_›, rfl⟩
  | tick =>
    simp only [act, Option.map_eq_some_iff, tick] at h
    obtain ⟨r, h, e⟩ := h
    split at h <;> cases h
    cases e
    exact .inr (.inl ⟨rfl, ‹_›, rfl, rfl⟩)
  | keyPress k => cases h; exact .inr (.inr (.inl ⟨k, rfl, rfl, rfl⟩))
  | keyRelease k => cases h; exact .inr (.inr (.inr (.inl ⟨k, rfl, rfl, rfl⟩)))
  | snapshot => cases h; exact .inr (.inr (.inr (.inr (.inl ⟨rfl, rfl, rfl⟩))))
  | reset font rom =>
    simp only [act, Option.map_eq_some_iff] at h
    obtain ⟨u, h, e⟩ := h
    cases e
    exact .inr (.inr (.inr (.inr (.inr ⟨font, rom, rfl, h, rfl⟩))))

end Sys2Proof.Machine
end

