-- ==== Sys2Proof/Laws/Memory.lean ====
section
/-! SUPPORT. Memory keeps its canonical form, a read after a write gives the byte written, and a write leaves every other
address alone. -/

namespace Sys2Proof.Machine.Memory

@[simp] theorem read_nil (a : Nat) : read [] a = resetByte a := rfl

theorem read_cons (b : Nat) (w : Byte) (m : Memory) (a : Nat) : read ((b, w) :: m) a = if a = b then w else read m a := rfl

theorem wfFrom_cons {lo b : Nat} {w : Byte} {m : Memory} :
    wfFrom lo ((b, w) :: m) = true ↔ lo ≤ b ∧ b < Config.memSize ∧ w ≠ resetByte b ∧ wfFrom (b + 1) m = true := by
  simp [wfFrom, and_assoc]

theorem wfFrom_le {lo lo' : Nat} {m : Memory} (h : wfFrom lo m = true) (hl : lo' ≤ lo) : wfFrom lo' m = true := by
  cases m with
  | nil => rfl
  | cons c m =>
    obtain ⟨b, w⟩ := c
    rw [wfFrom_cons] at h ⊢
    exact ⟨hl.trans h.1, h.2⟩

/-- Below the addresses of a canonical list nothing is listed. -/
theorem read_below {lo a : Nat} {m : Memory} (h : wfFrom lo m = true) (ha : a < lo) : read m a = resetByte a := by
  induction m generalizing lo with
  | nil => rfl
  | cons c m ih =>
    obtain ⟨b, w⟩ := c
    rw [wfFrom_cons] at h
    rw [read_cons, if_neg (by omega)]
    exact ih h.2.2.2 (by omega)

theorem wfFrom_write {lo a : Nat} {m : Memory} {v : Byte} (h : wfFrom lo m = true) (hl : lo ≤ a) (ha : a < Config.memSize) :
    wfFrom lo (write m a v) = true := by
  induction m generalizing lo with
  | nil =>
    unfold write
    split
    · rfl
    · rw [wfFrom_cons]; exact ⟨hl, ha, ‹_›, rfl⟩
  | cons c m ih =>
    obtain ⟨b, w⟩ := c
    have h0 := h
    rw [wfFrom_cons] at h
    unfold write
    split_ifs with h1 h2 h3 h4
    · exact h0
    · rw [wfFrom_cons, wfFrom_cons]
      exact ⟨hl, ha, h2, by omega, h.2⟩
    · exact wfFrom_le h.2.2.2 (by omega)
    · rw [wfFrom_cons]
      exact ⟨hl, ha, h4, by subst h3; exact h.2.2.2⟩
    · rw [wfFrom_cons]
      exact ⟨h.1, h.2.1, h.2.2.1, ih h.2.2.2 (by omega)⟩

/-- A write to an address that exists keeps the canonical form. -/
theorem wf_write {m : Memory} {a : Nat} {v : Byte} (h : wf m = true) (ha : a < Config.memSize) : wf (write m a v) = true :=
  wfFrom_write h (Nat.zero_le a) ha

/-- A write leaves every other address alone. -/
theorem read_write_other {a a' : Nat} (hne : a' ≠ a) (m : Memory) (v : Byte) : read (write m a v) a' = read m a' := by
  induction m with
  | nil => unfold write; split <;> simp [read, hne]
  | cons c m ih =>
    obtain ⟨b, w⟩ := c
    unfold write
    split_ifs with h1 h2 h3 h4
    · rfl
    · simp [read_cons, hne]
    · subst h3; simp [read_cons, hne]
    · subst h3; simp [read_cons, hne]
    · rw [read_cons, read_cons, ih]

theorem read_write_same_from {lo a : Nat} {m : Memory} {v : Byte} (h : wfFrom lo m = true) : read (write m a v) a = v := by
  induction m generalizing lo with
  | nil => unfold write; split <;> simp_all [read]
  | cons c m ih =>
    obtain ⟨b, w⟩ := c
    rw [wfFrom_cons] at h
    unfold write
    split_ifs with h1 h2 h3 h4
    · rw [read_cons, if_neg (by omega), read_below h.2.2.2 (by omega), h2]
    · simp [read_cons]
    · subst h3; rw [read_below h.2.2.2 (by omega), h4]
    · simp [read_cons]
    · rw [read_cons, if_neg h3, ih h.2.2.2]

/-- A read after a write to the same address gives the byte written. -/
theorem read_write_same {m : Memory} (h : wf m = true) (a : Nat) (v : Byte) : read (write m a v) a = v :=
  read_write_same_from h

theorem read_write {m : Memory} (h : wf m = true) (a a' : Nat) (v : Byte) :
    read (write m a v) a' = if a' = a then v else read m a' := by
  by_cases e : a' = a
  · subst e; simp [read_write_same h]
  · simp [e, read_write_other e]

/-- Writing a list of bytes below the top of memory keeps the canonical form. -/
theorem wf_writeList {vs : List Byte} {m : Memory} {a : Nat} (h : wf m = true) (ha : a + vs.length ≤ Config.memSize) :
    wf (writeList m a vs) = true := by
  induction vs generalizing m a with
  | nil => exact h
  | cons v vs ih =>
    rw [List.length_cons] at ha
    exact ih (wf_write h (by omega)) (by omega)

/-- Writing a list of bytes leaves every address outside them alone. -/
theorem read_writeList_other {vs : List Byte} {m : Memory} {a a' : Nat} (h : a' < a ∨ a + vs.length ≤ a') :
    read (writeList m a vs) a' = read m a' := by
  induction vs generalizing m a with
  | nil => rfl
  | cons v vs ih =>
    rw [List.length_cons] at h
    rw [writeList, ih (by omega), read_write_other (by omega)]

/-- The `k`-th byte of a list written from `a` is read back at `a + k`. -/
theorem read_writeList_at {vs : List Byte} {m : Memory} {a k : Nat} (h : wf m = true) (ha : a + vs.length ≤ Config.memSize)
    (hk : k < vs.length) : read (writeList m a vs) (a + k) = vs[k] := by
  induction vs generalizing m a k with
  | nil => simp at hk
  | cons v vs ih =>
    rw [List.length_cons] at ha hk
    cases k with
    | zero => rw [writeList, read_writeList_other (by omega)]; simpa using read_write_same h a v
    | succ k =>
      rw [writeList, show a + (k + 1) = (a + 1) + k by omega, ih (wf_write h (by omega)) (by omega) (by omega)]
      simp

/-- Two canonical memories that read the same everywhere are the same list. -/
theorem ext_of_wfFrom {lo : Nat} {m n : Memory} (hm : wfFrom lo m = true) (hn : wfFrom lo n = true)
    (h : ∀ a, read m a = read n a) : m = n := by
  induction m generalizing lo n with
  | nil =>
    cases n with
    | nil => rfl
    | cons c n =>
      obtain ⟨b, w⟩ := c
      rw [wfFrom_cons] at hn
      exact absurd (by simpa [read_cons] using (h b).symm) hn.2.2.1
  | cons c m ih =>
    obtain ⟨b, w⟩ := c
    rw [wfFrom_cons] at hm
    cases n with
    | nil => exact absurd (by simpa [read_cons] using h b) hm.2.2.1
    | cons d n =>
      obtain ⟨b', w'⟩ := d
      rw [wfFrom_cons] at hn
      have hb : b = b' := by
        rcases Nat.lt_trichotomy b b' with hl | he | hl
        · have := h b
          rw [read_cons, if_pos rfl, read_cons, if_neg (by omega), read_below hn.2.2.2 (by omega)] at this
          exact absurd this hm.2.2.1
        · exact he
        · have := h b'
          rw [read_cons, if_neg (by omega), read_cons, if_pos rfl, read_below hm.2.2.2 (by omega)] at this
          exact absurd this.symm hn.2.2.1
      subst hb
      have hw : w = w' := by simpa [read_cons] using h b
      subst hw
      congr 1
      refine ih hm.2.2.2 hn.2.2.2 fun a => ?_
      by_cases ha : a = b
      · subst ha; rw [read_below hm.2.2.2 (by omega), read_below hn.2.2.2 (by omega)]
      · simpa [read_cons, ha] using h a

theorem ext_of_wf {m n : Memory} (hm : wf m = true) (hn : wf n = true) (h : ∀ a, read m a = read n a) : m = n :=
  ext_of_wfFrom hm hn h

@[simp] theorem length_readList (m : Memory) (a n : Nat) : (readList m a n).length = n := by
  induction n generalizing a with
  | zero => rfl
  | succ n ih => simp [readList, ih]

/-- The `k`-th byte of a list read from `a` is the byte at `a + k`. -/
theorem getElem_readList (m : Memory) (a n k : Nat) (hk : k < (readList m a n).length) :
    (readList m a n)[k] = read m (a + k) := by
  induction n generalizing a k with
  | zero => simp at hk
  | succ n ih =>
    cases k with
    | zero => simp [readList]
    | succ k => simp only [readList, List.getElem_cons_succ]; rw [ih]; congr 1; omega

theorem inBounds_iff {a n : Nat} : inBounds a n = true ↔ n = 0 ∨ a + n ≤ Config.memSize := by
  unfold inBounds
  rw [Bool.or_eq_true, beq_iff_eq, decide_eq_true_iff]
  have : 0 < Config.memSize := by decide
  omega

end Sys2Proof.Machine.Memory
end

