-- ==== Sys2Proof/Laws/State.lean ====
section
/-! SUPPORT. One lemma per field per update of the state, and reading a register or a key after writing one. -/

namespace Sys2Proof.Machine

variable (s : State)

@[simp] theorem State.setReg_mem (x : Nibble) (b : Byte) : (s.setReg x b).mem = s.mem := rfl
@[simp] theorem State.setReg_v (x : Nibble) (b : Byte) : (s.setReg x b).v = s.v.set x.toNat b x.isLt := rfl
@[simp] theorem State.setReg_i (x : Nibble) (b : Byte) : (s.setReg x b).i = s.i := rfl
@[simp] theorem State.setReg_pc (x : Nibble) (b : Byte) : (s.setReg x b).pc = s.pc := rfl
@[simp] theorem State.setReg_stack (x : Nibble) (b : Byte) : (s.setReg x b).stack = s.stack := rfl
@[simp] theorem State.setReg_sp (x : Nibble) (b : Byte) : (s.setReg x b).sp = s.sp := rfl
@[simp] theorem State.setReg_dt (x : Nibble) (b : Byte) : (s.setReg x b).dt = s.dt := rfl
@[simp] theorem State.setReg_st (x : Nibble) (b : Byte) : (s.setReg x b).st = s.st := rfl
@[simp] theorem State.setReg_fb (x : Nibble) (b : Byte) : (s.setReg x b).fb = s.fb := rfl
@[simp] theorem State.setReg_keys (x : Nibble) (b : Byte) : (s.setReg x b).keys = s.keys := rfl
@[simp] theorem State.setReg_halt (x : Nibble) (b : Byte) : (s.setReg x b).halt = s.halt := rfl
@[simp] theorem State.setReg_draws (x : Nibble) (b : Byte) : (s.setReg x b).draws = s.draws := rfl

@[simp] theorem State.setI_mem (w : Word) : (s.setI w).mem = s.mem := rfl
@[simp] theorem State.setI_v (w : Word) : (s.setI w).v = s.v := rfl
@[simp] theorem State.setI_i (w : Word) : (s.setI w).i = w := rfl
@[simp] theorem State.setI_pc (w : Word) : (s.setI w).pc = s.pc := rfl
@[simp] theorem State.setI_stack (w : Word) : (s.setI w).stack = s.stack := rfl
@[simp] theorem State.setI_sp (w : Word) : (s.setI w).sp = s.sp := rfl
@[simp] theorem State.setI_dt (w : Word) : (s.setI w).dt = s.dt := rfl
@[simp] theorem State.setI_st (w : Word) : (s.setI w).st = s.st := rfl
@[simp] theorem State.setI_fb (w : Word) : (s.setI w).fb = s.fb := rfl
@[simp] theorem State.setI_keys (w : Word) : (s.setI w).keys = s.keys := rfl
@[simp] theorem State.setI_halt (w : Word) : (s.setI w).halt = s.halt := rfl
@[simp] theorem State.setI_draws (w : Word) : (s.setI w).draws = s.draws := rfl

@[simp] theorem State.setPc_mem (w : Word) : (s.setPc w).mem = s.mem := rfl
@[simp] theorem State.setPc_v (w : Word) : (s.setPc w).v = s.v := rfl
@[simp] theorem State.setPc_i (w : Word) : (s.setPc w).i = s.i := rfl
@[simp] theorem State.setPc_pc (w : Word) : (s.setPc w).pc = w := rfl
@[simp] theorem State.setPc_stack (w : Word) : (s.setPc w).stack = s.stack := rfl
@[simp] theorem State.setPc_sp (w : Word) : (s.setPc w).sp = s.sp := rfl
@[simp] theorem State.setPc_dt (w : Word) : (s.setPc w).dt = s.dt := rfl
@[simp] theorem State.setPc_st (w : Word) : (s.setPc w).st = s.st := rfl
@[simp] theorem State.setPc_fb (w : Word) : (s.setPc w).fb = s.fb := rfl
@[simp] theorem State.setPc_keys (w : Word) : (s.setPc w).keys = s.keys := rfl
@[simp] theorem State.setPc_halt (w : Word) : (s.setPc w).halt = s.halt := rfl
@[simp] theorem State.setPc_draws (w : Word) : (s.setPc w).draws = s.draws := rfl

@[simp] theorem State.setDt_mem (b : Byte) : (s.setDt b).mem = s.mem := rfl
@[simp] theorem State.setDt_v (b : Byte) : (s.setDt b).v = s.v := rfl
@[simp] theorem State.setDt_i (b : Byte) : (s.setDt b).i = s.i := rfl
@[simp] theorem State.setDt_pc (b : Byte) : (s.setDt b).pc = s.pc := rfl
@[simp] theorem State.setDt_stack (b : Byte) : (s.setDt b).stack = s.stack := rfl
@[simp] theorem State.setDt_sp (b : Byte) : (s.setDt b).sp = s.sp := rfl
@[simp] theorem State.setDt_dt (b : Byte) : (s.setDt b).dt = b := rfl
@[simp] theorem State.setDt_st (b : Byte) : (s.setDt b).st = s.st := rfl
@[simp] theorem State.setDt_fb (b : Byte) : (s.setDt b).fb = s.fb := rfl
@[simp] theorem State.setDt_keys (b : Byte) : (s.setDt b).keys = s.keys := rfl
@[simp] theorem State.setDt_halt (b : Byte) : (s.setDt b).halt = s.halt := rfl
@[simp] theorem State.setDt_draws (b : Byte) : (s.setDt b).draws = s.draws := rfl

@[simp] theorem State.setSt_mem (b : Byte) : (s.setSt b).mem = s.mem := rfl
@[simp] theorem State.setSt_v (b : Byte) : (s.setSt b).v = s.v := rfl
@[simp] theorem State.setSt_i (b : Byte) : (s.setSt b).i = s.i := rfl
@[simp] theorem State.setSt_pc (b : Byte) : (s.setSt b).pc = s.pc := rfl
@[simp] theorem State.setSt_stack (b : Byte) : (s.setSt b).stack = s.stack := rfl
@[simp] theorem State.setSt_sp (b : Byte) : (s.setSt b).sp = s.sp := rfl
@[simp] theorem State.setSt_dt (b : Byte) : (s.setSt b).dt = s.dt := rfl
@[simp] theorem State.setSt_st (b : Byte) : (s.setSt b).st = b := rfl
@[simp] theorem State.setSt_fb (b : Byte) : (s.setSt b).fb = s.fb := rfl
@[simp] theorem State.setSt_keys (b : Byte) : (s.setSt b).keys = s.keys := rfl
@[simp] theorem State.setSt_halt (b : Byte) : (s.setSt b).halt = s.halt := rfl
@[simp] theorem State.setSt_draws (b : Byte) : (s.setSt b).draws = s.draws := rfl

@[simp] theorem State.setFb_mem (f : FrameBuffer) : (s.setFb f).mem = s.mem := rfl
@[simp] theorem State.setFb_v (f : FrameBuffer) : (s.setFb f).v = s.v := rfl
@[simp] theorem State.setFb_i (f : FrameBuffer) : (s.setFb f).i = s.i := rfl
@[simp] theorem State.setFb_pc (f : FrameBuffer) : (s.setFb f).pc = s.pc := rfl
@[simp] theorem State.setFb_stack (f : FrameBuffer) : (s.setFb f).stack = s.stack := rfl
@[simp] theorem State.setFb_sp (f : FrameBuffer) : (s.setFb f).sp = s.sp := rfl
@[simp] theorem State.setFb_dt (f : FrameBuffer) : (s.setFb f).dt = s.dt := rfl
@[simp] theorem State.setFb_st (f : FrameBuffer) : (s.setFb f).st = s.st := rfl
@[simp] theorem State.setFb_fb (f : FrameBuffer) : (s.setFb f).fb = f := rfl
@[simp] theorem State.setFb_keys (f : FrameBuffer) : (s.setFb f).keys = s.keys := rfl
@[simp] theorem State.setFb_halt (f : FrameBuffer) : (s.setFb f).halt = s.halt := rfl
@[simp] theorem State.setFb_draws (f : FrameBuffer) : (s.setFb f).draws = s.draws := rfl

@[simp] theorem State.setMem_mem (m : Memory) : (s.setMem m).mem = m := rfl
@[simp] theorem State.setMem_v (m : Memory) : (s.setMem m).v = s.v := rfl
@[simp] theorem State.setMem_i (m : Memory) : (s.setMem m).i = s.i := rfl
@[simp] theorem State.setMem_pc (m : Memory) : (s.setMem m).pc = s.pc := rfl
@[simp] theorem State.setMem_stack (m : Memory) : (s.setMem m).stack = s.stack := rfl
@[simp] theorem State.setMem_sp (m : Memory) : (s.setMem m).sp = s.sp := rfl
@[simp] theorem State.setMem_dt (m : Memory) : (s.setMem m).dt = s.dt := rfl
@[simp] theorem State.setMem_st (m : Memory) : (s.setMem m).st = s.st := rfl
@[simp] theorem State.setMem_fb (m : Memory) : (s.setMem m).fb = s.fb := rfl
@[simp] theorem State.setMem_keys (m : Memory) : (s.setMem m).keys = s.keys := rfl
@[simp] theorem State.setMem_halt (m : Memory) : (s.setMem m).halt = s.halt := rfl
@[simp] theorem State.setMem_draws (m : Memory) : (s.setMem m).draws = s.draws := rfl

@[simp] theorem State.setKey_mem (k : Nibble) (c : KeyState) : (s.setKey k c).mem = s.mem := rfl
@[simp] theorem State.setKey_v (k : Nibble) (c : KeyState) : (s.setKey k c).v = s.v := rfl
@[simp] theorem State.setKey_i (k : Nibble) (c : KeyState) : (s.setKey k c).i = s.i := rfl
@[simp] theorem State.setKey_pc (k : Nibble) (c : KeyState) : (s.setKey k c).pc = s.pc := rfl
@[simp] theorem State.setKey_stack (k : Nibble) (c : KeyState) : (s.setKey k c).stack = s.stack := rfl
@[simp] theorem State.setKey_sp (k : Nibble) (c : KeyState) : (s.setKey k c).sp = s.sp := rfl
@[simp] theorem State.setKey_dt (k : Nibble) (c : KeyState) : (s.setKey k c).dt = s.dt := rfl
@[simp] theorem State.setKey_st (k : Nibble) (c : KeyState) : (s.setKey k c).st = s.st := rfl
@[simp] theorem State.setKey_fb (k : Nibble) (c : KeyState) : (s.setKey k c).fb = s.fb := rfl
@[simp] theorem State.setKey_keys (k : Nibble) (c : KeyState) : (s.setKey k c).keys = s.keys.set k.toNat c k.isLt := rfl
@[simp] theorem State.setKey_halt (k : Nibble) (c : KeyState) : (s.setKey k c).halt = s.halt := rfl
@[simp] theorem State.setKey_draws (k : Nibble) (c : KeyState) : (s.setKey k c).draws = s.draws := rfl

@[simp] theorem State.countDraw_mem : (s.countDraw).mem = s.mem := rfl
@[simp] theorem State.countDraw_v : (s.countDraw).v = s.v := rfl
@[simp] theorem State.countDraw_i : (s.countDraw).i = s.i := rfl
@[simp] theorem State.countDraw_pc : (s.countDraw).pc = s.pc := rfl
@[simp] theorem State.countDraw_stack : (s.countDraw).stack = s.stack := rfl
@[simp] theorem State.countDraw_sp : (s.countDraw).sp = s.sp := rfl
@[simp] theorem State.countDraw_dt : (s.countDraw).dt = s.dt := rfl
@[simp] theorem State.countDraw_st : (s.countDraw).st = s.st := rfl
@[simp] theorem State.countDraw_fb : (s.countDraw).fb = s.fb := rfl
@[simp] theorem State.countDraw_keys : (s.countDraw).keys = s.keys := rfl
@[simp] theorem State.countDraw_halt : (s.countDraw).halt = s.halt := rfl
@[simp] theorem State.countDraw_draws : (s.countDraw).draws = s.draws + 1 := rfl

@[simp] theorem State.raise_mem (c : FaultCause) (a : Word) : (s.raise c a).mem = s.mem := rfl
@[simp] theorem State.raise_v (c : FaultCause) (a : Word) : (s.raise c a).v = s.v := rfl
@[simp] theorem State.raise_i (c : FaultCause) (a : Word) : (s.raise c a).i = s.i := rfl
@[simp] theorem State.raise_pc (c : FaultCause) (a : Word) : (s.raise c a).pc = s.pc := rfl
@[simp] theorem State.raise_stack (c : FaultCause) (a : Word) : (s.raise c a).stack = s.stack := rfl
@[simp] theorem State.raise_sp (c : FaultCause) (a : Word) : (s.raise c a).sp = s.sp := rfl
@[simp] theorem State.raise_dt (c : FaultCause) (a : Word) : (s.raise c a).dt = s.dt := rfl
@[simp] theorem State.raise_st (c : FaultCause) (a : Word) : (s.raise c a).st = s.st := rfl
@[simp] theorem State.raise_fb (c : FaultCause) (a : Word) : (s.raise c a).fb = s.fb := rfl
@[simp] theorem State.raise_keys (c : FaultCause) (a : Word) : (s.raise c a).keys = s.keys := rfl
@[simp] theorem State.raise_halt (c : FaultCause) (a : Word) : (s.raise c a).halt = some ⟨c, a⟩ := rfl
@[simp] theorem State.raise_draws (c : FaultCause) (a : Word) : (s.raise c a).draws = s.draws := rfl

@[simp] theorem State.advance_mem : (s.advance).mem = s.mem := rfl
@[simp] theorem State.advance_v : (s.advance).v = s.v := rfl
@[simp] theorem State.advance_i : (s.advance).i = s.i := rfl
@[simp] theorem State.advance_pc : (s.advance).pc = s.pc + 2 := rfl
@[simp] theorem State.advance_stack : (s.advance).stack = s.stack := rfl
@[simp] theorem State.advance_sp : (s.advance).sp = s.sp := rfl
@[simp] theorem State.advance_dt : (s.advance).dt = s.dt := rfl
@[simp] theorem State.advance_st : (s.advance).st = s.st := rfl
@[simp] theorem State.advance_fb : (s.advance).fb = s.fb := rfl
@[simp] theorem State.advance_keys : (s.advance).keys = s.keys := rfl
@[simp] theorem State.advance_halt : (s.advance).halt = s.halt := rfl
@[simp] theorem State.advance_draws : (s.advance).draws = s.draws := rfl

@[simp] theorem State.reg_setI (w : Word) (y : Nibble) : (s.setI w).reg y = s.reg y := rfl
@[simp] theorem State.reg_setPc (w : Word) (y : Nibble) : (s.setPc w).reg y = s.reg y := rfl
@[simp] theorem State.reg_setDt (b : Byte) (y : Nibble) : (s.setDt b).reg y = s.reg y := rfl
@[simp] theorem State.reg_setSt (b : Byte) (y : Nibble) : (s.setSt b).reg y = s.reg y := rfl
@[simp] theorem State.reg_setFb (f : FrameBuffer) (y : Nibble) : (s.setFb f).reg y = s.reg y := rfl
@[simp] theorem State.reg_setMem (m : Memory) (y : Nibble) : (s.setMem m).reg y = s.reg y := rfl
@[simp] theorem State.reg_setKey (k : Nibble) (c : KeyState) (y : Nibble) : (s.setKey k c).reg y = s.reg y := rfl
@[simp] theorem State.reg_countDraw (y : Nibble) : (s.countDraw).reg y = s.reg y := rfl
@[simp] theorem State.reg_raise (c : FaultCause) (a : Word) (y : Nibble) : (s.raise c a).reg y = s.reg y := rfl
@[simp] theorem State.reg_advance (y : Nibble) : (s.advance).reg y = s.reg y := rfl

@[simp] theorem State.key_setReg (x : Nibble) (b : Byte) (j : Nibble) : (s.setReg x b).key j = s.key j := rfl
@[simp] theorem State.key_setI (w : Word) (j : Nibble) : (s.setI w).key j = s.key j := rfl
@[simp] theorem State.key_setPc (w : Word) (j : Nibble) : (s.setPc w).key j = s.key j := rfl
@[simp] theorem State.key_setDt (b : Byte) (j : Nibble) : (s.setDt b).key j = s.key j := rfl
@[simp] theorem State.key_setSt (b : Byte) (j : Nibble) : (s.setSt b).key j = s.key j := rfl
@[simp] theorem State.key_setFb (f : FrameBuffer) (j : Nibble) : (s.setFb f).key j = s.key j := rfl
@[simp] theorem State.key_setMem (m : Memory) (j : Nibble) : (s.setMem m).key j = s.key j := rfl
@[simp] theorem State.key_countDraw (j : Nibble) : (s.countDraw).key j = s.key j := rfl
@[simp] theorem State.key_raise (c : FaultCause) (a : Word) (j : Nibble) : (s.raise c a).key j = s.key j := rfl
@[simp] theorem State.key_advance (j : Nibble) : (s.advance).key j = s.key j := rfl

@[simp] theorem State.byte_setReg (x : Nibble) (b : Byte) (j : Nat) : (s.setReg x b).byte j = s.byte j := rfl
@[simp] theorem State.byte_setI (w : Word) (j : Nat) : (s.setI w).byte j = s.byte j := rfl
@[simp] theorem State.byte_setPc (w : Word) (j : Nat) : (s.setPc w).byte j = s.byte j := rfl
@[simp] theorem State.byte_setDt (b : Byte) (j : Nat) : (s.setDt b).byte j = s.byte j := rfl
@[simp] theorem State.byte_setSt (b : Byte) (j : Nat) : (s.setSt b).byte j = s.byte j := rfl
@[simp] theorem State.byte_setFb (f : FrameBuffer) (j : Nat) : (s.setFb f).byte j = s.byte j := rfl
@[simp] theorem State.byte_setKey (k : Nibble) (c : KeyState) (j : Nat) : (s.setKey k c).byte j = s.byte j := rfl
@[simp] theorem State.byte_countDraw (j : Nat) : (s.countDraw).byte j = s.byte j := rfl
@[simp] theorem State.byte_raise (c : FaultCause) (a : Word) (j : Nat) : (s.raise c a).byte j = s.byte j := rfl
@[simp] theorem State.byte_advance (j : Nat) : (s.advance).byte j = s.byte j := rfl

@[simp] theorem State.byte_setMem (m : Memory) (j : Nat) : (s.setMem m).byte j = m.read j := rfl

theorem State.reg_setReg (x y : Nibble) (b : Byte) : (s.setReg x b).reg y = if y = x then b else s.reg y := by
  unfold State.reg State.setReg
  simp only [Vector.getElem_set]
  by_cases h : y = x
  · subst h; simp
  · have : ¬ x.toNat = y.toNat := fun e => h (BitVec.eq_of_toNat_eq e.symm)
    simp [h, this]

@[simp] theorem State.reg_setReg_same (x : Nibble) (b : Byte) : (s.setReg x b).reg x = b := by
  simp [State.reg_setReg]

theorem State.reg_setReg_other {x y : Nibble} (h : y ≠ x) (b : Byte) : (s.setReg x b).reg y = s.reg y := by
  simp [State.reg_setReg, h]

theorem State.key_setKey (k j : Nibble) (c : KeyState) : (s.setKey k c).key j = if j = k then c else s.key j := by
  unfold State.key State.setKey
  simp only [Vector.getElem_set]
  by_cases h : j = k
  · subst h; simp
  · have : ¬ k.toNat = j.toNat := fun e => h (BitVec.eq_of_toNat_eq e.symm)
    simp [h, this]

/-- Two register files that agree at every number are equal. -/
theorem State.v_ext {s t : State} (h : ∀ y, t.reg y = s.reg y) : t.v = s.v := by
  apply Vector.ext
  intro k hk
  have := h (BitVec.ofNat 4 k)
  simpa [State.reg, Nat.mod_eq_of_lt hk] using this

end Sys2Proof.Machine
end

