-- ==== Sys2Proof/Laws/Ops.lean ====
section
/-! SUPPORT. One lemma per shared operation that says what it can do, for proofs to cite instead of unfolding it. -/

namespace Sys2Proof.Machine

/-! Answering. -/

@[simp] theorem complete_ok (s t : State) : complete s (.ok t) = .next t := rfl

@[simp] theorem complete_error (s : State) (c : FaultCause) : complete s (.error c) = .next (s.raise c s.opcodeAt) := rfl

/-- An answer of `complete` is a computed state or the fault taken. -/
theorem complete_cases {s t : State} {r : Except FaultCause State} (h : complete s r = .next t) :
    r = .ok t ∨ ∃ c, r = .error c ∧ t = s.raise c s.opcodeAt := by
  cases r with
  | ok u => simp only [complete_ok, Host.Outcome.next.injEq] at h; exact .inl (by rw [h])
  | error c => simp only [complete_error, Host.Outcome.next.injEq] at h; exact .inr ⟨c, rfl, h.symm⟩

/-! Memory. -/

theorem loadBytes_fits {s : State} {a n : Nat} (h : n = 0 ∨ a + n ≤ 4096) : s.loadBytes a n = .ok (s.mem.readList a n) := by
  rw [State.loadBytes, if_pos (Memory.inBounds_iff.2 h)]

theorem loadBytes_past {s : State} {a n : Nat} (hn : 0 < n) (h : 4096 < a + n) :
    s.loadBytes a n = .error .memoryOutOfBounds := by
  rw [State.loadBytes, if_neg]
  rw [Memory.inBounds_iff, Config.memSize]
  omega

theorem storeBytes_fits {s : State} {a : Nat} {vs : List Byte} (h : vs.length = 0 ∨ a + vs.length ≤ 4096) :
    s.storeBytes a vs = .ok (s.setMem (s.mem.writeList a vs)) := by
  rw [State.storeBytes, if_pos (Memory.inBounds_iff.2 h)]

theorem storeBytes_past {s : State} {a : Nat} {vs : List Byte} (hn : 0 < vs.length) (h : 4096 < a + vs.length) :
    s.storeBytes a vs = .error .memoryOutOfBounds := by
  rw [State.storeBytes, if_neg]
  rw [Memory.inBounds_iff, Config.memSize]
  omega

/-- A load that succeeds was in bounds and gives the bytes of memory; one that does not is out of bounds. -/
theorem loadBytes_cases (s : State) (a n : Nat) :
    ((n = 0 ∨ a + n ≤ 4096) ∧ s.loadBytes a n = .ok (s.mem.readList a n)) ∨
    (0 < n ∧ 4096 < a + n ∧ s.loadBytes a n = .error .memoryOutOfBounds) := by
  by_cases h : n = 0 ∨ a + n ≤ 4096
  · exact .inl ⟨h, loadBytes_fits h⟩
  · exact .inr ⟨by omega, by omega, loadBytes_past (by omega) (by omega)⟩

/-- A store that succeeds was in bounds and changes memory alone; one that does not is out of bounds. -/
theorem storeBytes_cases (s : State) (a : Nat) (vs : List Byte) :
    ((vs.length = 0 ∨ a + vs.length ≤ 4096) ∧ s.storeBytes a vs = .ok (s.setMem (s.mem.writeList a vs))) ∨
    (0 < vs.length ∧ 4096 < a + vs.length ∧ s.storeBytes a vs = .error .memoryOutOfBounds) := by
  by_cases h : vs.length = 0 ∨ a + vs.length ≤ 4096
  · exact .inl ⟨h, storeBytes_fits h⟩
  · exact .inr ⟨by omega, by omega, storeBytes_past (by omega) (by omega)⟩

/-- A successful store keeps memory canonical. -/
theorem storeBytes_wf {s t : State} {a : Nat} {vs : List Byte} (hw : s.mem.wf = true) (h : s.storeBytes a vs = .ok t) :
    t.mem.wf = true := by
  rcases storeBytes_cases s a vs with ⟨hb, e⟩ | ⟨-, -, e⟩
  · rw [e] at h
    cases h
    rcases hb with h0 | hb
    · rw [List.length_eq_zero_iff.1 h0]; exact hw
    · exact Memory.wf_writeList hw hb
  · rw [e] at h; cases h

/-! The stack. -/

/-- What `push` can answer (R31). -/
theorem push_cases (s : State) (w : Word) :
    (∃ h : s.sp.val < 16, s.push w = .ok { s with stack := s.stack.set s.sp.val w h, sp := ⟨s.sp.val + 1, by omega⟩ }) ∨
    (s.sp.val = 16 ∧ s.push w = .error .stackOverflow) := by
  by_cases h : s.sp.val < 16
  · exact .inl ⟨h, by rw [State.push, dif_pos h]⟩
  · exact .inr ⟨by omega, by rw [State.push, dif_neg h]⟩

/-- What `pop` can answer (R32). -/
theorem pop_cases (s : State) :
    (∃ h : 0 < s.sp.val, s.pop = .ok (s.stack[s.sp.val - 1]'(by omega), { s with sp := ⟨s.sp.val - 1, by omega⟩ })) ∨
    (s.sp.val = 0 ∧ s.pop = .error .stackUnderflow) := by
  by_cases h : 0 < s.sp.val
  · exact .inl ⟨h, by rw [State.pop, dif_pos h]⟩
  · exact .inr ⟨by omega, by rw [State.pop, dif_neg h]⟩

/-! Keys. -/

theorem keyNumbered_key {s : State} {b : Byte} (h : b.toNat < 16) :
    s.keyNumbered b = .ok (s.key (BitVec.ofNat 4 b.toNat)) := by
  rw [State.keyNumbered, if_pos h]

theorem keyNumbered_none {s : State} {b : Byte} (h : 15 < b.toNat) : s.keyNumbered b = .error .keyIndexOutOfRange := by
  rw [State.keyNumbered, if_neg (by omega)]

/-- The key `FX0A` takes is pressed and no lower one is (R214). -/
theorem lowestPressed_some {s : State} {k : Nibble} (h : s.lowestPressed = some k) :
    s.key k = .pressed ∧ ∀ j : Nibble, j.toNat < k.toNat → s.key j ≠ .pressed := by
  unfold State.lowestPressed at h
  rw [List.find?_map] at h
  simp only [Option.map_eq_some_iff] at h
  obtain ⟨n, hn, rfl⟩ := h
  rw [List.find?_range_eq_some] at hn
  obtain ⟨h1, h2, h3⟩ := hn
  refine ⟨by simpa using h1, fun j hj hp => ?_⟩
  have hlt : n < 16 := by simpa using h2
  have := h3 j.toNat (by simpa [Nat.mod_eq_of_lt hlt] using hj)
  simp [hp] at this

/-- No key is taken exactly when none is pressed (R214). -/
theorem lowestPressed_none {s : State} : s.lowestPressed = none ↔ ∀ j : Nibble, s.key j ≠ .pressed := by
  unfold State.lowestPressed
  rw [List.find?_eq_none]
  constructor
  · intro h j
    have := h j (List.mem_map.2 ⟨j.toNat, List.mem_range.2 j.isLt, by simp⟩)
    simpa using this
  · intro h j _
    simpa using h j

theorem key_consume (s : State) (k j : Nibble) :
    (s.consume k).key j = if j = k ∧ s.key k = .pressed then .consumed else s.key j := by
  unfold State.consume
  by_cases h : s.key k = .pressed <;> simp [h, State.key_setKey]

/-- `consume` changes the keys alone. -/
theorem consume_eq (s : State) (k : Nibble) : ∃ ks, s.consume k = { s with keys := ks } := by
  unfold State.consume
  split
  · exact ⟨_, rfl⟩
  · exact ⟨s.keys, rfl⟩

/-! Registers. -/

theorem reg_setRegsFrom (s : State) (k : Nat) (bs : List Byte) (h : k + bs.length ≤ 16) (y : Nibble) :
    (s.setRegsFrom k bs).reg y = if hy : k ≤ y.toNat ∧ y.toNat < k + bs.length then bs[y.toNat - k] else s.reg y := by
  induction bs generalizing s k with
  | nil => rw [dif_neg (by simp only [List.length_nil]; omega)]; rfl
  | cons b bs ih =>
    rw [List.length_cons] at h
    rw [State.setRegsFrom, ih _ _ (by omega)]
    by_cases h1 : k + 1 ≤ y.toNat ∧ y.toNat < k + 1 + bs.length
    · have h2 : y.toNat - k = y.toNat - (k + 1) + 1 := by omega
      rw [dif_pos h1, dif_pos (by rw [List.length_cons]; omega)]
      simp only [h2, List.getElem_cons_succ]
    · rw [dif_neg h1, State.reg_setReg]
      by_cases h2 : y.toNat = k
      · have e : y = BitVec.ofNat 4 k := by rw [← h2]; simp
        rw [if_pos e, dif_pos (by rw [List.length_cons]; omega)]
        simp only [h2, Nat.sub_self, List.getElem_cons_zero]
      · have e : y ≠ BitVec.ofNat 4 k := by
          intro e; apply h2; rw [e, BitVec.toNat_ofNat]; omega
        rw [if_neg e, dif_neg (by rw [List.length_cons]; omega)]

/-- Loading registers changes the registers alone. -/
theorem setRegsFrom_eq (s : State) (k : Nat) (bs : List Byte) : ∃ vs, s.setRegsFrom k bs = { s with v := vs } := by
  induction bs generalizing s k with
  | nil => exact ⟨s.v, rfl⟩
  | cons b bs ih =>
    obtain ⟨vs, h⟩ := ih (s.setReg (BitVec.ofNat 4 k) b) (k + 1)
    exact ⟨vs, h⟩

@[simp] theorem length_regsUpTo (s : State) (x : Nibble) : (s.regsUpTo x).length = x.toNat + 1 := by
  simp [State.regsUpTo]

theorem getElem_regsUpTo (s : State) (x : Nibble) (k : Nat) (h : k < (s.regsUpTo x).length) :
    (s.regsUpTo x)[k] = s.reg (BitVec.ofNat 4 k) := by
  simp [State.regsUpTo]

/-- The flag and result writes change the registers alone. -/
theorem flagThenResult_eq (s : State) (f : Byte) (x : Nibble) (g : State → Byte) :
    ∃ vs, s.flagThenResult f x g = { s with v := vs } := ⟨_, rfl⟩

theorem reg_flagThenResult (s : State) (f : Byte) (x : Nibble) (g : State → Byte) (y : Nibble) :
    (s.flagThenResult f x g).reg y =
      if y = x then g (s.setReg flagReg f) else if y = flagReg then f else s.reg y := by
  rw [State.flagThenResult, State.reg_setReg, State.reg_setReg]

/-- `skip` changes `PC` alone. -/
theorem skipIf_eq (s : State) (c : Bool) : s.skipIf c = { s with pc := if c then s.pc + 2 else s.pc } := by
  cases c <;> rfl

/-! The frame buffer. -/

theorem blitCell_fb (j : Fin 2048) (acc : FrameBuffer × Bool) (k : Nat) (hk : k < 2048) :
    (blitCell j acc).1[k] = if j.val = k then !acc.1[k] else acc.1[k] := by
  simp only [blitCell, Vector.getElem_set]
  split
  · subst_vars; rfl
  · rfl

theorem blitCell_collided (j : Fin 2048) (acc : FrameBuffer × Bool) :
    (blitCell j acc).2 = (acc.2 || acc.1[j.val]) := rfl

/-! Fetch and decode. -/

/-- What the step does before execution (R90, R238): a fetch fault with `PC` kept, an illegal opcode with `PC` advanced,
or an instruction to run with `PC` advanced. -/
theorem fetchDecode_cases (s : State) :
    (4095 ≤ s.pc.toNat ∧ s.fetchDecode = .error (s.raise .memoryOutOfBounds s.pc)) ∨
    (s.pc.toNat ≤ 4094 ∧ ∃ e, decode (wordOfBytes (s.byte s.pc.toNat) (s.byte (s.pc.toNat + 1))) = .error e ∧
      s.fetchDecode = .error (s.advance.raise .unsupportedInstruction s.pc)) ∨
    (s.pc.toNat ≤ 4094 ∧ ∃ i, decode (wordOfBytes (s.byte s.pc.toNat) (s.byte (s.pc.toNat + 1))) = .ok i ∧
      s.fetchDecode = .ok (i, s.advance)) := by
  by_cases h : 4095 ≤ s.pc.toNat
  · refine .inl ⟨h, ?_⟩
    rw [State.fetchDecode, State.fetchBytes, loadBytes_past (by omega) (by omega)]
  · have hl : s.fetchBytes = .ok [s.byte s.pc.toNat, s.byte (s.pc.toNat + 1)] := loadBytes_fits (by omega)
    refine .inr ?_
    cases hd : decode (wordOfBytes (s.byte s.pc.toNat) (s.byte (s.pc.toNat + 1))) with
    | error e => exact .inl ⟨by omega, e, rfl, by simp only [State.fetchDecode, hl, decodeBytes, hd]⟩
    | ok i => exact .inr ⟨by omega, i, rfl, by simp only [State.fetchDecode, hl, decodeBytes, hd]⟩

/-- A step that answers a next state ran from a machine that was not halted: it took a fetch or decode fault, or ran one
instruction (R90, R237). -/
theorem step_cases {s t : State} (h : step s = .next t) :
    s.halt = none ∧
    ((4095 ≤ s.pc.toNat ∧ t = s.raise .memoryOutOfBounds s.pc) ∨
     (s.pc.toNat ≤ 4094 ∧ t = s.advance.raise .unsupportedInstruction s.pc) ∨
     (s.pc.toNat ≤ 4094 ∧ ∃ i, decode (wordOfBytes (s.byte s.pc.toNat) (s.byte (s.pc.toNat + 1))) = .ok i ∧
        exec i s.advance = .next t)) := by
  unfold step at h
  split at h
  · cases h
  · refine ⟨‹_›, ?_⟩
    rcases fetchDecode_cases s with ⟨hp, e⟩ | ⟨hp, _, -, e⟩ | ⟨hp, i, hd, e⟩ <;> rw [e] at h
    · exact .inl ⟨hp, by cases h; rfl⟩
    · exact .inr (.inl ⟨hp, by cases h; rfl⟩)
    · exact .inr (.inr ⟨hp, i, hd, h⟩)

end Sys2Proof.Machine
end

