-- ==== Sys2Proof/Laws/Safety.lean ====
section
/-! SUPPORT. Small lemmas of the vocabulary claims are stated in: completing, frames, and what each update leaves alone. -/

namespace Sys2Proof.Machine

@[simp] theorem completes_next (t : State) (P : State → Prop) : Completes (.next t) P ↔ P t := by
  simp [Completes]

theorem Completes.mono {o : Answer} {P Q : State → Prop} (h : Completes o P) (hpq : ∀ t, P t → Q t) : Completes o Q := by
  obtain ⟨t, e, p⟩ := h
  exact ⟨t, e, hpq t p⟩

/-- An answer that completes has the next state it is known to have. -/
theorem Completes.of_next {o : Answer} {P : State → Prop} {t : State} (h : Completes o P) (e : o = .next t) : P t := by
  obtain ⟨u, e', p⟩ := h
  rw [e] at e'
  cases e'
  exact p

/-! Frames. -/

theorem SameBut.refl (cs : List Piece) (s : State) : SameBut cs s s := by simp [SameBut]

theorem SameBut.mono {cs ds : List Piece} {s t : State} (h : SameBut cs s t) (hs : ∀ c, c ∈ cs → c ∈ ds) : SameBut ds s t := by
  obtain ⟨h1, h2, h3, h4, h5, h6, h7, h8, h9, h10, h11, h12⟩ := h
  exact ⟨fun n => h1 (fun m => n (hs _ m)), fun n => h2 (fun m => n (hs _ m)), fun n => h3 (fun m => n (hs _ m)),
    fun n => h4 (fun m => n (hs _ m)), fun n => h5 (fun m => n (hs _ m)), fun n => h6 (fun m => n (hs _ m)),
    fun n => h7 (fun m => n (hs _ m)), fun n => h8 (fun m => n (hs _ m)), fun n => h9 (fun m => n (hs _ m)),
    fun n => h10 (fun m => n (hs _ m)), fun n => h11 (fun m => n (hs _ m)), fun n => h12 (fun m => n (hs _ m))⟩

theorem SameBut.trans {cs : List Piece} {s t u : State} (h : SameBut cs s t) (g : SameBut cs t u) : SameBut cs s u := by
  obtain ⟨h1, h2, h3, h4, h5, h6, h7, h8, h9, h10, h11, h12⟩ := h
  obtain ⟨g1, g2, g3, g4, g5, g6, g7, g8, g9, g10, g11, g12⟩ := g
  exact ⟨fun n a => (g1 n a).trans (h1 n a), fun n a => (g2 n a).trans (h2 n a), fun n => (g3 n).trans (h3 n),
    fun n => (g4 n).trans (h4 n), fun n => (g5 n).trans (h5 n), fun n => (g6 n).trans (h6 n), fun n => (g7 n).trans (h7 n),
    fun n => (g8 n).trans (h8 n), fun n => (g9 n).trans (h9 n), fun n a => (g10 n a).trans (h10 n a),
    fun n => (g11 n).trans (h11 n), fun n => (g12 n).trans (h12 n)⟩

variable (s : State)

theorem sameBut_setReg (x : Nibble) (b : Byte) : SameBut [.v] s (s.setReg x b) := by
  simp [SameBut, State.byte, State.reg, State.key]

theorem sameBut_setI (w : Word) : SameBut [.i] s (s.setI w) := by
  simp [SameBut, State.byte, State.reg, State.key]

theorem sameBut_setPc (w : Word) : SameBut [.pc] s (s.setPc w) := by
  simp [SameBut, State.byte, State.reg, State.key]

theorem sameBut_setDt (b : Byte) : SameBut [.dt] s (s.setDt b) := by
  simp [SameBut, State.byte, State.reg, State.key]

theorem sameBut_setSt (b : Byte) : SameBut [.st] s (s.setSt b) := by
  simp [SameBut, State.byte, State.reg, State.key]

theorem sameBut_setFb (f : FrameBuffer) : SameBut [.fb] s (s.setFb f) := by
  simp [SameBut, State.byte, State.reg, State.key]

theorem sameBut_setMem (m : Memory) : SameBut [.mem] s (s.setMem m) := by
  simp [SameBut, State.byte, State.reg, State.key]

theorem sameBut_setKey (k : Nibble) (c : KeyState) : SameBut [.keys] s (s.setKey k c) := by
  simp [SameBut, State.byte, State.reg, State.key]

theorem sameBut_countDraw : SameBut [.draws] s (s.countDraw) := by
  simp [SameBut, State.byte, State.reg, State.key]

theorem sameBut_raise (c : FaultCause) (a : Word) : SameBut [.halt] s (s.raise c a) := by
  simp [SameBut, State.byte, State.reg, State.key]

theorem sameBut_advance : SameBut [.pc] s (s.advance) := by
  simp [SameBut, State.byte, State.reg, State.key]

theorem sameBut_skipIf (c : Bool) : SameBut [.pc] s (s.skipIf c) := by
  rw [skipIf_eq]
  simp [SameBut, State.byte, State.reg, State.key]

theorem sameBut_flagThenResult (f : Byte) (x : Nibble) (g : State → Byte) : SameBut [.v] s (s.flagThenResult f x g) := by
  unfold State.flagThenResult
  simp [SameBut, State.byte, State.reg, State.key]

theorem sameBut_setRegsFrom (k : Nat) (bs : List Byte) : SameBut [.v] s (s.setRegsFrom k bs) := by
  obtain ⟨vs, e⟩ := setRegsFrom_eq s k bs
  rw [e]
  simp [SameBut, State.byte, State.reg, State.key]

theorem sameBut_consume (k : Nibble) : SameBut [.keys] s (s.consume k) := by
  obtain ⟨ks, e⟩ := consume_eq s k
  rw [e]
  simp [SameBut, State.byte, State.reg, State.key]

theorem sameBut_addToI (n : Nat) : SameBut [.i] s (s.addToI n) := by
  unfold State.addToI
  simp [SameBut, State.byte, State.reg, State.key]

theorem regsSameBut_setReg (x : Nibble) (b : Byte) : RegsSameBut [x] s (s.setReg x b) := by
  intro y hy
  exact State.reg_setReg_other s (by simpa using hy) b

theorem regsSameBut_flagThenResult (f : Byte) (x : Nibble) (g : State → Byte) :
    RegsSameBut [x, flagReg] s (s.flagThenResult f x g) := by
  intro y hy
  simp only [List.mem_cons, List.not_mem_nil, or_false, not_or] at hy
  rw [reg_flagThenResult, if_neg hy.1, if_neg hy.2]

/-- Taking a fault changes `HALT` alone. -/
theorem tookFault_raise (c : FaultCause) (a : Word) : TookFault c s (s.raise c a) := ⟨⟨a, rfl⟩, sameBut_raise s c a⟩

theorem stackEntry_eq (j : Nat) (h : j < 16) : s.stackEntry j = s.stack[j] := by
  simp [State.stackEntry, List.getD_eq_getElem?_getD, h]

theorem cell_eq (x y : Nat) (h : y * 64 + x < 2048) : s.cell x y = s.fb[y * 64 + x] := by
  simp [State.cell, List.getD_eq_getElem?_getD, h]

end Sys2Proof.Machine
end

