-- ==== Sys2Proof/Laws/Display.lean ====
section
/-! SUPPORT. What the blit does to each cell and to the collision flag (spec/43_display.md R193 to R195): the cells under a
sprite's 1 bits are distinct, each of them flips once, and a collision is one of them that was on. -/

namespace Sys2Proof.Machine

/-- The indexes of the cells under the 1 bits of one row, left to right. -/
def rowCells (x0 y : Nat) (row : Byte) : List (Fin 2048) :=
  ((List.range 8).filter fun c => row.getLsbD (7 - c)).map fun c => cellIndex (x0 + c) y

/-- The indexes of the cells under the 1 bits of a sprite, row by row. -/
def spriteCells (x0 y : Nat) : List Byte → List (Fin 2048)
  | [] => []
  | row :: rows => rowCells x0 y row ++ spriteCells x0 (y + 1) rows

/-- A row is blitted cell by cell. -/
theorem blitRow_eq (x0 y : Nat) (row : Byte) (acc : FrameBuffer × Bool) :
    blitRow x0 y row acc = (rowCells x0 y row).foldl (fun a j => blitCell j a) acc := by
  unfold blitRow rowCells
  rw [List.foldl_map, List.foldl_filter]

/-- A sprite is blitted cell by cell. -/
theorem blitRows_eq (x0 y : Nat) (rows : List Byte) (acc : FrameBuffer × Bool) :
    blitRows x0 y rows acc = (spriteCells x0 y rows).foldl (fun a j => blitCell j a) acc := by
  induction rows generalizing y acc with
  | nil => rfl
  | cons row rows ih => rw [blitRows, ih, blitRow_eq, spriteCells, List.foldl_append]

/-- Blitting distinct cells flips each of them. -/
theorem foldl_blitCell_fb (js : List (Fin 2048)) (hn : js.Nodup) (acc : FrameBuffer × Bool) (k : Nat) (hk : k < 2048) :
    (js.foldl (fun a j => blitCell j a) acc).1[k] = (acc.1[k] != decide ((⟨k, hk⟩ : Fin 2048) ∈ js)) := by
  induction js generalizing acc with
  | nil => simp
  | cons j js ih =>
    rw [List.nodup_cons] at hn
    rw [List.foldl_cons, ih hn.2, blitCell_fb]
    by_cases e : j.val = k
    · subst e
      simp [hn.1]
    · have e' : (⟨k, hk⟩ : Fin 2048) ≠ j := fun h => e (by rw [← h])
      simp [e, e']

/-- Blitting distinct cells collides exactly when one of them was on. -/
theorem foldl_blitCell_collided (js : List (Fin 2048)) (hn : js.Nodup) (acc : FrameBuffer × Bool) :
    (js.foldl (fun a j => blitCell j a) acc).2 = (acc.2 || js.any fun j => acc.1[j.val]) := by
  induction js generalizing acc with
  | nil => simp
  | cons j js ih =>
    rw [List.nodup_cons] at hn
    rw [List.foldl_cons, ih hn.2, blitCell_collided, List.any_cons, Bool.or_assoc]
    congr 2
    rw [Bool.eq_iff_iff, List.any_eq_true, List.any_eq_true]
    constructor <;> rintro ⟨i, hi, h⟩ <;> refine ⟨i, hi, ?_⟩
    · rwa [blitCell_fb, if_neg (fun e => hn.1 (by rw [Fin.ext e]; exact hi))] at h
    · rwa [blitCell_fb, if_neg (fun e => hn.1 (by rw [Fin.ext e]; exact hi))]

/-- Which cells a row covers. -/
theorem mem_rowCells {x0 y : Nat} {row : Byte} {j : Fin 2048} :
    j ∈ rowCells x0 y row ↔ ∃ c, c < 8 ∧ row.getLsbD (7 - c) = true ∧ cellIndex (x0 + c) y = j := by
  simp only [rowCells, List.mem_map, List.mem_filter, List.mem_range, and_assoc]

/-- Which cells a sprite covers. -/
theorem mem_spriteCells {x0 y : Nat} {rows : List Byte} {j : Fin 2048} :
    j ∈ spriteCells x0 y rows ↔
      ∃ r, ∃ h : r < rows.length, ∃ c, c < 8 ∧ rows[r].getLsbD (7 - c) = true ∧ cellIndex (x0 + c) (y + r) = j := by
  induction rows generalizing y with
  | nil => simp [spriteCells]
  | cons row rows ih =>
    rw [spriteCells, List.mem_append, ih, mem_rowCells]
    constructor
    · rintro (⟨c, hc, hb, e⟩ | ⟨r, hr, c, hc, hb, e⟩)
      · exact ⟨0, by simp, c, hc, hb, e⟩
      · exact ⟨r + 1, by simpa using hr, c, hc, hb, by rw [← e]; congr 1; omega⟩
    · rintro ⟨r, hr, c, hc, hb, e⟩
      cases r with
      | zero => exact .inl ⟨c, hc, hb, e⟩
      | succ r => exact .inr ⟨r, by simpa using hr, c, hc, hb, by rw [← e]; congr 1; omega⟩

/-- The cells of a sprite of at most 32 rows are distinct. -/
theorem nodup_spriteCells (x0 y : Nat) (rows : List Byte) (h : rows.length ≤ 32) : (spriteCells x0 y rows).Nodup := by
  induction rows generalizing y with
  | nil => exact List.nodup_nil
  | cons row rows ih =>
    rw [List.length_cons] at h
    rw [spriteCells, List.nodup_append]
    refine ⟨?_, ih _ (by omega), ?_⟩
    · refine List.Nodup.map_on ?_ (List.nodup_range.filter _)
      intro a ha b hb e
      simp only [List.mem_filter, List.mem_range] at ha hb
      have := congrArg Fin.val e
      simp only [cellIndex] at this
      omega
    · intro a ha b hb e
      subst e
      rw [mem_rowCells] at ha
      rw [mem_spriteCells] at hb
      obtain ⟨c, hc, -, rfl⟩ := ha
      obtain ⟨r, hr, c', hc', -, e⟩ := hb
      have := congrArg Fin.val e
      simp only [cellIndex] at this
      omega

end Sys2Proof.Machine
end

