-- ==== Sys2Proof/Laws/Encoding.lean ====
section
/-! SUPPORT. The fields of an opcode as arithmetic on its number, and the fields of each format's encoding
(spec/00_scope.md R12, spec/30_encoding.md R92). -/

namespace Sys2Proof

theorem toNat_append {w v : Nat} (a : BitVec w) (b : BitVec v) : (a ++ b).toNat = a.toNat * 2 ^ v + b.toNat := by
  rw [BitVec.toNat_append, ← Nat.shiftLeft_add_eq_or_of_lt b.isLt, Nat.shiftLeft_eq]

theorem fieldFam_toNat (op : Word) : (fieldFam op).toNat = op.toNat / 4096 := by
  have := op.isLt
  simp [fieldFam, Nat.shiftRight_eq_div_pow]; omega

theorem fieldX_toNat (op : Word) : (fieldX op).toNat = op.toNat / 256 % 16 := by
  simp [fieldX, Nat.shiftRight_eq_div_pow]

theorem fieldY_toNat (op : Word) : (fieldY op).toNat = op.toNat / 16 % 16 := by
  simp [fieldY, Nat.shiftRight_eq_div_pow]

theorem fieldN_toNat (op : Word) : (fieldN op).toNat = op.toNat % 16 := by
  simp [fieldN]

theorem fieldNN_toNat (op : Word) : (fieldNN op).toNat = op.toNat % 256 := by
  simp [fieldNN]

theorem fieldNNN_toNat (op : Word) : (fieldNNN op).toNat = op.toNat % 4096 := by
  simp [fieldNNN]

/-- The number of a format A word. -/
theorem toNat_formatA (f : Nibble) (nnn : Addr) : (formatA f nnn).toNat = f.toNat * 4096 + nnn.toNat :=
  toNat_append f nnn

/-- The number of a format XI or XK word. -/
theorem toNat_formatXI (f x : Nibble) (nn : Byte) : (formatXI f x nn).toNat = f.toNat * 4096 + x.toNat * 256 + nn.toNat := by
  have h : (formatXI f x nn).toNat = (f ++ x).toNat * 2 ^ 8 + nn.toNat := toNat_append (f ++ x) nn
  rw [h, toNat_append]
  omega

/-- The number of a format XY or XYN word. -/
theorem toNat_formatXY (f x y n : Nibble) :
    (formatXY f x y n).toNat = f.toNat * 4096 + x.toNat * 256 + y.toNat * 16 + n.toNat := by
  have h : (formatXY f x y n).toNat = (f ++ x ++ y).toNat * 2 ^ 4 + n.toNat := toNat_append (f ++ x ++ y) n
  rw [h, toNat_append, toNat_append]
  omega

/-- The fields of a format A word. -/
theorem fields_formatA (f : Nibble) (nnn : Addr) : fieldFam (formatA f nnn) = f ∧ fieldNNN (formatA f nnn) = nnn := by
  have := f.isLt
  have := nnn.isLt
  constructor <;> apply BitVec.eq_of_toNat_eq
  · rw [fieldFam_toNat, toNat_formatA]; omega
  · rw [fieldNNN_toNat, toNat_formatA]; omega

/-- The fields of a format XI or XK word. -/
theorem fields_formatXI (f x : Nibble) (nn : Byte) :
    fieldFam (formatXI f x nn) = f ∧ fieldX (formatXI f x nn) = x ∧ fieldNN (formatXI f x nn) = nn := by
  have := f.isLt
  have := x.isLt
  have := nn.isLt
  refine ⟨?_, ?_, ?_⟩ <;> apply BitVec.eq_of_toNat_eq
  · rw [fieldFam_toNat, toNat_formatXI]; omega
  · rw [fieldX_toNat, toNat_formatXI]; omega
  · rw [fieldNN_toNat, toNat_formatXI]; omega

/-- The fields of a format XY or XYN word. -/
theorem fields_formatXY (f x y n : Nibble) :
    fieldFam (formatXY f x y n) = f ∧ fieldX (formatXY f x y n) = x ∧ fieldY (formatXY f x y n) = y ∧
      fieldN (formatXY f x y n) = n := by
  have := f.isLt
  have := x.isLt
  have := y.isLt
  have := n.isLt
  refine ⟨?_, ?_, ?_, ?_⟩ <;> apply BitVec.eq_of_toNat_eq
  · rw [fieldFam_toNat, toNat_formatXY]; omega
  · rw [fieldX_toNat, toNat_formatXY]; omega
  · rw [fieldY_toNat, toNat_formatXY]; omega
  · rw [fieldN_toNat, toNat_formatXY]; omega

/-- Two bytes as a big-endian number (R63). -/
theorem wordOfBytes_eq (hi lo : Byte) : wordOfBytes hi lo = BitVec.ofNat 16 (hi.toNat * 256 + lo.toNat) := by
  apply BitVec.eq_of_toNat_eq
  have := hi.isLt
  have := lo.isLt
  have h : (wordOfBytes hi lo).toNat = hi.toNat * 256 + lo.toNat := toNat_append hi lo
  rw [h, BitVec.toNat_ofNat]
  omega

/-- An opcode is made of its two bytes. -/
theorem wordOfBytes_highByte_lowByte (op : Word) : wordOfBytes (highByte op) (lowByte op) = op := by
  apply BitVec.eq_of_toNat_eq
  have := op.isLt
  rw [wordOfBytes_eq]
  simp [highByte, lowByte, Nat.shiftRight_eq_div_pow]
  omega

end Sys2Proof
end

