-- ==== Sys2Proof/Laws/PerInstr.lean ====
section
/-! SUPPORT. The per-instruction family Row: every instruction is well-formed, and its opcode is selected by its own row of
the opcode map (spec/30_encoding.md R93 to R95). -/

namespace Sys2Proof

/-- Every field width of R92 is its operand's range in R93. -/
theorem reg_fits (x : Nibble) : x.toNat ≤ OperandKind.reg.max := Nat.le_of_lt_succ x.isLt

theorem nibble_fits (x : Nibble) : x.toNat ≤ OperandKind.nibble.max := Nat.le_of_lt_succ x.isLt

theorem byte_fits (b : Byte) : b.toNat ≤ OperandKind.byte.max := Nat.le_of_lt_succ b.isLt

theorem addr_fits (n : Addr) : n.toNat ≤ OperandKind.addr.max := Nat.le_of_lt_succ n.isLt

theorem selects_iff (m p w : Word) : Row.selects ⟨m, p⟩ w = true ↔ w &&& m = p := by simp [Row.selects]

/-- Format A. -/
theorem selects_formatA (f : Nibble) (nnn : Addr) : Row.selects ⟨0xF000, f ++ 0#12⟩ (formatA f nnn) = true := by
  unfold formatA
  rw [selects_iff, show (0xF000 : Word) = 0xF#4 ++ 0x000#12 from rfl, BitVec.and_append]
  congr 1
  · exact BitVec.and_allOnes (x := f)
  · exact BitVec.and_zero

/-- Format XI. -/
theorem selects_formatXI (f x : Nibble) (nn : Byte) : Row.selects ⟨0xF000, f ++ 0#12⟩ (formatXI f x nn) = true := by
  have h : formatXI f x nn = formatA f (x ++ nn : Addr) := BitVec.append_assoc
  rw [h]
  exact selects_formatA f _

/-- Format XY. -/
theorem selects_formatXY (f x y n : Nibble) :
    Row.selects ⟨0xF00F, f ++ 0#4 ++ 0#4 ++ n⟩ (formatXY f x y n) = true := by
  unfold formatXY
  rw [selects_iff, show (0xF00F : Word) = 0xF#4 ++ 0x0#4 ++ 0x0#4 ++ 0xF#4 from rfl, BitVec.and_append, BitVec.and_append,
    BitVec.and_append]
  congr 1
  · congr 1
    · congr 1
      · exact BitVec.and_allOnes (x := f)
      · exact BitVec.and_zero
    · exact BitVec.and_zero
  · exact BitVec.and_allOnes (x := n)

/-- Format XYN. -/
theorem selects_formatXYN (f x y n : Nibble) : Row.selects ⟨0xF000, f ++ 0#12⟩ (formatXY f x y n) = true := by
  have h : formatXY f x y n = formatXI f x (y ++ n : Byte) := BitVec.append_assoc (x₁ := f ++ x)
  rw [h]
  exact selects_formatXI f x _

/-- Format XK. -/
theorem selects_formatXK (f x : Nibble) (k : Byte) : Row.selects ⟨0xF0FF, f ++ 0#4 ++ k⟩ (formatXI f x k) = true := by
  unfold formatXI
  rw [selects_iff, show (0xF0FF : Word) = 0xF#4 ++ 0x0#4 ++ 0xFF#8 from rfl, BitVec.and_append, BitVec.and_append]
  congr 1
  · congr 1
    · exact BitVec.and_allOnes (x := f)
    · exact BitVec.and_zero
  · exact BitVec.and_allOnes (x := k)

theorem wellFormed_none (o : Op) (h : o.operands = []) : AsmLine.wellFormed ⟨o, []⟩ = true := by
  simp [AsmLine.wellFormed, h, operandsFit]

theorem wellFormed_one (o : Op) (k : OperandKind) (a : Nat) (h : o.operands = [k]) (ha : a ≤ k.max) :
    AsmLine.wellFormed ⟨o, [a]⟩ = true := by
  simp [AsmLine.wellFormed, h, operandsFit, ha]

theorem wellFormed_two (o : Op) (k l : OperandKind) (a b : Nat) (h : o.operands = [k, l]) (ha : a ≤ k.max) (hb : b ≤ l.max) :
    AsmLine.wellFormed ⟨o, [a, b]⟩ = true := by
  simp [AsmLine.wellFormed, h, operandsFit, ha, hb]

theorem wellFormed_three (o : Op) (k l m : OperandKind) (a b c : Nat) (h : o.operands = [k, l, m]) (ha : a ≤ k.max)
    (hb : b ≤ l.max) (hc : c ≤ m.max) : AsmLine.wellFormed ⟨o, [a, b, c]⟩ = true := by
  simp [AsmLine.wellFormed, h, operandsFit, ha, hb, hc]

namespace Laws.Row

/-- The instruction is well-formed, and its opcode carries exactly the fixed bits of its row. -/
def Statement (i : Instr) : Prop := i.wellFormed = true ∧ i.op.row.selects (encode i) = true

theorem cls : Statement .cls := ⟨wellFormed_none .cls rfl, by decide⟩

theorem ret : Statement .ret := ⟨wellFormed_none .ret rfl, by decide⟩

theorem jp (nnn : Addr) : Statement (.jp nnn) :=
  ⟨wellFormed_one .jp .addr _ rfl (addr_fits nnn), selects_formatA 0x1 nnn⟩

theorem call (nnn : Addr) : Statement (.call nnn) :=
  ⟨wellFormed_one .call .addr _ rfl (addr_fits nnn), selects_formatA 0x2 nnn⟩

theorem seImm (x : Nibble) (nn : Byte) : Statement (.seImm x nn) :=
  ⟨wellFormed_two .seImm .reg .byte _ _ rfl (reg_fits x) (byte_fits nn), selects_formatXI 0x3 x nn⟩

theorem sneImm (x : Nibble) (nn : Byte) : Statement (.sneImm x nn) :=
  ⟨wellFormed_two .sneImm .reg .byte _ _ rfl (reg_fits x) (byte_fits nn), selects_formatXI 0x4 x nn⟩

theorem seReg (x y : Nibble) : Statement (.seReg x y) :=
  ⟨wellFormed_two .seReg .reg .reg _ _ rfl (reg_fits x) (reg_fits y), selects_formatXY 0x5 x y 0x0⟩

theorem ldImm (x : Nibble) (nn : Byte) : Statement (.ldImm x nn) :=
  ⟨wellFormed_two .ldImm .reg .byte _ _ rfl (reg_fits x) (byte_fits nn), selects_formatXI 0x6 x nn⟩

theorem addImm (x : Nibble) (nn : Byte) : Statement (.addImm x nn) :=
  ⟨wellFormed_two .addImm .reg .byte _ _ rfl (reg_fits x) (byte_fits nn), selects_formatXI 0x7 x nn⟩

theorem ldReg (x y : Nibble) : Statement (.ldReg x y) :=
  ⟨wellFormed_two .ldReg .reg .reg _ _ rfl (reg_fits x) (reg_fits y), selects_formatXY 0x8 x y 0x0⟩

theorem or (x y : Nibble) : Statement (.or x y) :=
  ⟨wellFormed_two .or .reg .reg _ _ rfl (reg_fits x) (reg_fits y), selects_formatXY 0x8 x y 0x1⟩

theorem and (x y : Nibble) : Statement (.and x y) :=
  ⟨wellFormed_two .and .reg .reg _ _ rfl (reg_fits x) (reg_fits y), selects_formatXY 0x8 x y 0x2⟩

theorem xor (x y : Nibble) : Statement (.xor x y) :=
  ⟨wellFormed_two .xor .reg .reg _ _ rfl (reg_fits x) (reg_fits y), selects_formatXY 0x8 x y 0x3⟩

theorem addReg (x y : Nibble) : Statement (.addReg x y) :=
  ⟨wellFormed_two .addReg .reg .reg _ _ rfl (reg_fits x) (reg_fits y), selects_formatXY 0x8 x y 0x4⟩

theorem sub (x y : Nibble) : Statement (.sub x y) :=
  ⟨wellFormed_two .sub .reg .reg _ _ rfl (reg_fits x) (reg_fits y), selects_formatXY 0x8 x y 0x5⟩

theorem shr (x y : Nibble) : Statement (.shr x y) :=
  ⟨wellFormed_one .shr .reg _ rfl (reg_fits x), selects_formatXY 0x8 x y 0x6⟩

theorem subn (x y : Nibble) : Statement (.subn x y) :=
  ⟨wellFormed_two .subn .reg .reg _ _ rfl (reg_fits x) (reg_fits y), selects_formatXY 0x8 x y 0x7⟩

theorem shl (x y : Nibble) : Statement (.shl x y) :=
  ⟨wellFormed_one .shl .reg _ rfl (reg_fits x), selects_formatXY 0x8 x y 0xE⟩

theorem sneReg (x y : Nibble) : Statement (.sneReg x y) :=
  ⟨wellFormed_two .sneReg .reg .reg _ _ rfl (reg_fits x) (reg_fits y), selects_formatXY 0x9 x y 0x0⟩

theorem ldI (nnn : Addr) : Statement (.ldI nnn) :=
  ⟨wellFormed_one .ldI .addr _ rfl (addr_fits nnn), selects_formatA 0xA nnn⟩

theorem jpV0 (nnn : Addr) : Statement (.jpV0 nnn) :=
  ⟨wellFormed_one .jpV0 .addr _ rfl (addr_fits nnn), selects_formatA 0xB nnn⟩

theorem rnd (x : Nibble) (nn : Byte) : Statement (.rnd x nn) :=
  ⟨wellFormed_two .rnd .reg .byte _ _ rfl (reg_fits x) (byte_fits nn), selects_formatXI 0xC x nn⟩

theorem drw (x y n : Nibble) : Statement (.drw x y n) :=
  ⟨wellFormed_three .drw .reg .reg .nibble _ _ _ rfl (reg_fits x) (reg_fits y) (nibble_fits n),
    selects_formatXYN 0xD x y n⟩

theorem skp (x : Nibble) : Statement (.skp x) :=
  ⟨wellFormed_one .skp .reg _ rfl (reg_fits x), selects_formatXK 0xE x 0x9E⟩

theorem sknp (x : Nibble) : Statement (.sknp x) :=
  ⟨wellFormed_one .sknp .reg _ rfl (reg_fits x), selects_formatXK 0xE x 0xA1⟩

theorem ldVxDt (x : Nibble) : Statement (.ldVxDt x) :=
  ⟨wellFormed_one .ldVxDt .reg _ rfl (reg_fits x), selects_formatXK 0xF x 0x07⟩

theorem ldVxK (x : Nibble) : Statement (.ldVxK x) :=
  ⟨wellFormed_one .ldVxK .reg _ rfl (reg_fits x), selects_formatXK 0xF x 0x0A⟩

theorem ldDtVx (x : Nibble) : Statement (.ldDtVx x) :=
  ⟨wellFormed_one .ldDtVx .reg _ rfl (reg_fits x), selects_formatXK 0xF x 0x15⟩

theorem ldStVx (x : Nibble) : Statement (.ldStVx x) :=
  ⟨wellFormed_one .ldStVx .reg _ rfl (reg_fits x), selects_formatXK 0xF x 0x18⟩

theorem addI (x : Nibble) : Statement (.addI x) :=
  ⟨wellFormed_one .addI .reg _ rfl (reg_fits x), selects_formatXK 0xF x 0x1E⟩

theorem ldF (x : Nibble) : Statement (.ldF x) :=
  ⟨wellFormed_one .ldF .reg _ rfl (reg_fits x), selects_formatXK 0xF x 0x29⟩

theorem ldB (x : Nibble) : Statement (.ldB x) :=
  ⟨wellFormed_one .ldB .reg _ rfl (reg_fits x), selects_formatXK 0xF x 0x33⟩

theorem stRegs (x : Nibble) : Statement (.stRegs x) :=
  ⟨wellFormed_one .stRegs .reg _ rfl (reg_fits x), selects_formatXK 0xF x 0x55⟩

theorem ldRegs (x : Nibble) : Statement (.ldRegs x) :=
  ⟨wellFormed_one .ldRegs .reg _ rfl (reg_fits x), selects_formatXK 0xF x 0x65⟩

end Laws.Row

end Sys2Proof
end

