-- ==== Sys2Proof/Tests/Slice0.lean ====
section
/-! SUPPORT. The model's own tests, on fixed values from spec/95_test_vectors.md (the vector is named before each test) or
worked out by hand from the rule, and for each obligation with hypotheses a witness that meets them. -/

namespace Sys2Proof.Tests

open Sys2Proof Sys2Proof.Machine

/-! Helpers. -/

/-- A quantity of the next state, `none` for a fault or a refusal. -/
def after {α : Type} (f : State → α) : Answer → Option α
  | .next t => some (f t)
  | .fault _ => none
  | .refused _ => none

/-- One step with the opcode placed at `PC`. -/
def stepOn (op : Nat) (s : State) : Answer := step (s.withFetchWord 16 op)

/-- `s` with bytes stored at an address. -/
def bytesAt (a : Nat) (vs : List Byte) (s : State) : State := s.setMem (s.mem.writeList a vs)

/-- What stands in `HALT`: the cause and the address of the opcode. -/
def fault (s : State) : Option FaultRecord := s.halt

/-- The state after reset with `PC` elsewhere. -/
def atPc (a : Word) : State := State.reset.setPc a

/-- The state after reset with `n` stack entries in use. -/
def withSp (n : Fin 17) : State := { State.reset with sp := n }

/-! Well-formedness: one ill-formed line for each check of `AsmLine.wellFormed` (R93, R100). -/

theorem test_wellFormed_accepts : (AsmLine.mk .drw [15, 0, 15]).wellFormed = true ∧ (AsmLine.mk .jp [4095]).wellFormed = true ∧
    (AsmLine.mk .seImm [15, 255]).wellFormed = true ∧ (AsmLine.mk .cls []).wellFormed = true := by decide

theorem test_wellFormed_too_few_operands : (AsmLine.mk .addReg [1]).wellFormed = false := by decide

theorem test_wellFormed_too_many_operands : (AsmLine.mk .shr [1, 2]).wellFormed = false := by decide

theorem test_wellFormed_register_out_of_range : (AsmLine.mk .skp [16]).wellFormed = false := by decide

theorem test_wellFormed_address_out_of_range : (AsmLine.mk .call [4096]).wellFormed = false := by decide

theorem test_wellFormed_byte_out_of_range : (AsmLine.mk .ldImm [3, 256]).wellFormed = false := by decide

theorem test_wellFormed_nibble_out_of_range : (AsmLine.mk .drw [0, 0, 16]).wellFormed = false := by decide

theorem test_illFormed_line_assembles_to_nothing : assemble (AsmLine.mk .call [4096]) = none := by decide

theorem test_assemble_shr_has_y_zero : assemble (AsmLine.mk .shr [3]) = some (.shr 3 0) := by decide

/-! Decoding: a word of every row, its four digits written out from R95's encoding column. -/

theorem test_decode_family_0 : decode 0x00E0 = .ok .cls ∧ decode 0x00EE = .ok .ret := ⟨rfl, rfl⟩

theorem test_decode_jumps_and_calls : decode 0x1ABC = .ok (.jp 0xABC) ∧ decode 0x2FFF = .ok (.call 0xFFF) ∧
    decode 0xB300 = .ok (.jpV0 0x300) := ⟨rfl, rfl, rfl⟩

theorem test_decode_skips : decode 0x3C7F = .ok (.seImm 0xC 0x7F) ∧ decode 0x4C7F = .ok (.sneImm 0xC 0x7F) ∧
    decode 0x5AB0 = .ok (.seReg 0xA 0xB) ∧ decode 0x9AB0 = .ok (.sneReg 0xA 0xB) := ⟨rfl, rfl, rfl, rfl⟩

theorem test_decode_immediates : decode 0x6A2F = .ok (.ldImm 0xA 0x2F) ∧ decode 0x7305 = .ok (.addImm 3 5) ∧
    decode 0xC50F = .ok (.rnd 5 0x0F) := ⟨rfl, rfl, rfl⟩

theorem test_decode_family_8_logic : decode 0x8AB0 = .ok (.ldReg 0xA 0xB) ∧ decode 0x8AB1 = .ok (.or 0xA 0xB) ∧
    decode 0x8AB2 = .ok (.and 0xA 0xB) ∧ decode 0x8AB3 = .ok (.xor 0xA 0xB) := ⟨rfl, rfl, rfl, rfl⟩

theorem test_decode_family_8_arithmetic : decode 0x8AB4 = .ok (.addReg 0xA 0xB) ∧ decode 0x8AB5 = .ok (.sub 0xA 0xB) ∧
    decode 0x8FA6 = .ok (.shr 0xF 0xA) ∧ decode 0x8AB7 = .ok (.subn 0xA 0xB) ∧ decode 0x8ABE = .ok (.shl 0xA 0xB) :=
  ⟨rfl, rfl, rfl, rfl, rfl⟩

theorem test_decode_index_and_draw : decode 0xA2F0 = .ok (.ldI 0x2F0) ∧ decode 0xD125 = .ok (.drw 1 2 5) := ⟨rfl, rfl⟩

theorem test_decode_family_E : decode 0xE39E = .ok (.skp 3) ∧ decode 0xE3A1 = .ok (.sknp 3) := ⟨rfl, rfl⟩

theorem test_decode_family_F_timers : decode 0xF507 = .ok (.ldVxDt 5) ∧ decode 0xF40A = .ok (.ldVxK 4) ∧
    decode 0xF515 = .ok (.ldDtVx 5) ∧ decode 0xF618 = .ok (.ldStVx 6) := ⟨rfl, rfl, rfl, rfl⟩

theorem test_decode_family_F_index : decode 0xF21E = .ok (.addI 2) ∧ decode 0xF029 = .ok (.ldF 0) ∧
    decode 0xF033 = .ok (.ldB 0) ∧ decode 0xF155 = .ok (.stRegs 1) ∧ decode 0xF265 = .ok (.ldRegs 2) :=
  ⟨rfl, rfl, rfl, rfl, rfl⟩

/-- Vectors E2, E3, E4: illegal opcodes. -/
theorem test_decode_refuses :
    [0x5011, 0x01E0, 0x8128, 0x812F, 0xE000, 0xF000, 0xF075, 0x9001, 0x0123].all
      (fun w => (decodeTableWord 16 w).isNone) = true := by decide

theorem test_decode_truncated : decodeBytes [0x12] = .error (.truncated 1) := rfl

/-- No two rows of R95 match the same opcode. -/
theorem test_rows_disjoint : Op.all.Pairwise (fun a b => a.row.overlaps b.row = false) := by decide

theorem test_encode_is_big_endian : encodeBytes (.jp 0x234) = [0x12, 0x34] := by decide

theorem test_decodeTableWord : decodeTableWord 16 0x1234 = some (.jp 0x234) := by decide

/-! Control flow. -/

/-- CF1. -/
theorem test_jp : after State.pc (stepOn 0x1234 State.reset) = some 0x0234 := by decide

/-- CF3, the jump itself goes past the last opcode and does not fault. -/
theorem test_jp_to_last_byte : after (fun t => (t.pc, fault t)) (stepOn 0x1FFF State.reset) = some (0x0FFF, none) := by decide

/-- CF5. -/
theorem test_call : after (fun t => (t.stackEntry 0, t.sp, t.pc)) (stepOn 0x2300 State.reset) = some (0x0202, 1, 0x0300) := by
  decide

/-- CF6. -/
theorem test_call_overflow : after (fun t => (fault t, t.pc, t.sp)) (stepOn 0x2300 (withSp 16)) =
    some (some ⟨.stackOverflow, 0x200⟩, 0x0202, 16) := by decide

/-- CF7: the entry popped stays in the array. -/
theorem test_ret : after (fun t => (t.pc, t.sp, t.stackEntry 0))
    (stepOn 0x00EE { withSp 1 with stack := (Vector.replicate 16 0).set 0 0x0ABC }) = some (0x0ABC, 0, 0x0ABC) := by decide

/-- CF8. -/
theorem test_ret_underflow : after (fun t => (fault t, t.pc, t.sp)) (stepOn 0x00EE State.reset) =
    some (some ⟨.stackUnderflow, 0x200⟩, 0x0202, 0) := by decide

/-- CF9. -/
theorem test_seImm_skips : after State.pc (stepOn 0x312A (State.reset.setReg 1 0x2A)) = some 0x0204 := by decide

/-- CF10. -/
theorem test_seImm_goes_on : after State.pc (stepOn 0x312A (State.reset.setReg 1 0x2B)) = some 0x0202 := by decide

/-- CF11. -/
theorem test_sneImm_goes_on : after State.pc (stepOn 0x412A (State.reset.setReg 1 0x2A)) = some 0x0202 := by decide

/-- CF12. -/
theorem test_sneImm_skips : after State.pc (stepOn 0x412A State.reset) = some 0x0204 := by decide

/-- CF13. -/
theorem test_seReg_skips : after State.pc (stepOn 0x5230 ((State.reset.setReg 2 7).setReg 3 7)) = some 0x0204 := by decide

/-- CF14. -/
theorem test_seReg_goes_on : after State.pc (stepOn 0x5230 ((State.reset.setReg 2 7).setReg 3 8)) = some 0x0202 := by decide

/-- CF16. -/
theorem test_sneReg_skips : after State.pc (stepOn 0x9230 ((State.reset.setReg 2 7).setReg 3 8)) = some 0x0204 := by decide

/-- CF17. -/
theorem test_sneReg_same_register : after State.pc (stepOn 0x9220 (State.reset.setReg 2 7)) = some 0x0202 := by decide

/-- CF18. -/
theorem test_jpV0 : after State.pc (stepOn 0xB300 (State.reset.setReg 0 4)) = some 0x0304 := by decide

/-- CF19: the sum is not reduced to 12 bits. -/
theorem test_jpV0_past_memory : after State.pc (stepOn 0xBFFF (State.reset.setReg 0 0xFF)) = some 0x10FE := by decide

/-! Loads, arithmetic, logic. -/

/-- A1. -/
theorem test_ldImm : after (fun t => t.reg 10) (stepOn 0x6A2F State.reset) = some 0x2F := by decide

/-- A2: no carry flag. -/
theorem test_addImm_wraps : after (fun t => (t.reg 3, t.reg 15)) (stepOn 0x7305 (State.reset.setReg 3 0xFE)) = some (3, 0) := by
  decide

/-- A3. -/
theorem test_addImm_to_vf : after (fun t => t.reg 15) (stepOn 0x7F01 (State.reset.setReg 15 0xFF)) = some 0 := by decide

/-- A4. -/
theorem test_ldReg : after (fun t => (t.reg 1, t.reg 2)) (stepOn 0x8120 (State.reset.setReg 2 0x77)) = some (0x77, 0x77) := by
  decide

/-- A5: `VF` is not reset. -/
theorem test_or : after (fun t => (t.reg 1, t.reg 15))
    (stepOn 0x8121 (((State.reset.setReg 1 0x0F).setReg 2 0xA0).setReg 15 1)) = some (0xAF, 1) := by decide

/-- A6. -/
theorem test_and : after (fun t => t.reg 1) (stepOn 0x8122 ((State.reset.setReg 1 0x3C).setReg 2 0x0F)) = some 0x0C := by decide

/-- A7. -/
theorem test_xor : after (fun t => t.reg 1) (stepOn 0x8123 ((State.reset.setReg 1 0xFF).setReg 2 0x0F)) = some 0xF0 := by decide

/-- S2. -/
theorem test_addReg_carries : after (fun t => (t.reg 1, t.reg 2, t.reg 15))
    (stepOn 0x8124 ((State.reset.setReg 1 0xFF).setReg 2 1)) = some (0, 1, 1) := by decide

/-- F2: `VF` is the second operand, and the flag is written first. -/
theorem test_addReg_from_vf : after (fun t => (t.reg 1, t.reg 15))
    (stepOn 0x81F4 ((State.reset.setReg 1 0xF0).setReg 15 0x20)) = some (0xF1, 1) := by decide

/-- S3. -/
theorem test_sub_borrows : after (fun t => (t.reg 1, t.reg 15))
    (stepOn 0x8125 ((State.reset.setReg 1 1).setReg 2 2)) = some (0xFF, 0) := by decide

/-- F4: `VF` is the destination. -/
theorem test_sub_to_vf : after (fun t => t.reg 15) (stepOn 0x8F25 ((State.reset.setReg 15 5).setReg 2 3)) = some 0xFE := by
  decide

/-- A14: the second register is not used. -/
theorem test_shr : after (fun t => (t.reg 1, t.reg 2, t.reg 15))
    (stepOn 0x8126 ((State.reset.setReg 1 0xFF).setReg 2 0x10)) = some (0x7F, 0x10, 1) := by decide

/-- F10. -/
theorem test_shr_vf : after (fun t => t.reg 15) (stepOn 0x8F06 (State.reset.setReg 15 3)) = some 0 := by decide

/-- A12. -/
theorem test_subn_borrows : after (fun t => (t.reg 1, t.reg 15))
    (stepOn 0x8127 ((State.reset.setReg 1 5).setReg 2 3)) = some (0xFE, 0) := by decide

/-- F9. -/
theorem test_subn_from_vf : after (fun t => (t.reg 1, t.reg 15))
    (stepOn 0x81F7 ((State.reset.setReg 1 5).setReg 15 9)) = some (0xFC, 1) := by decide

/-- A15. -/
theorem test_shl : after (fun t => (t.reg 1, t.reg 2, t.reg 15))
    (stepOn 0x812E ((State.reset.setReg 1 0xFF).setReg 2 0x10)) = some (0xFE, 0x10, 1) := by decide

/-- F11. -/
theorem test_shl_vf : after (fun t => t.reg 15) (stepOn 0x8F0E (State.reset.setReg 15 0x81)) = some 2 := by decide

/-- A20: whatever is drawn, the mask 0 leaves 0; one draw is taken. -/
theorem test_rnd_mask_zero : after (fun t => (t.reg 5, t.draws)) (stepOn 0xC500 State.reset) = some (0, 1) := by
  have h : after (fun t => (t.reg 5, t.draws)) (stepOn 0xC500 State.reset) = some (Config.rnd 0 &&& 0#8, 1) := rfl
  rw [h, BitVec.and_zero]; rfl

/-! Index register and memory. -/

/-- M1. -/
theorem test_ldI : after State.i (stepOn 0xA2F0 State.reset) = some 0x02F0 := by decide

/-- M3: no overflow flag and no fault. -/
theorem test_addI_past_memory : after (fun t => (t.i, t.reg 15, fault t))
    (stepOn 0xF01E ((State.reset.setI 0x0FFF).setReg 0 1)) = some (0x1000, 0, none) := by decide

/-- M4. -/
theorem test_addI_wraps : after State.i (stepOn 0xF01E ((State.reset.setI 0xFFFF).setReg 0 2)) = some 1 := by decide

/-- M5. -/
theorem test_ldF : after State.i (stepOn 0xF029 (State.reset.setReg 0 0x0A)) = some 0x32 := by decide

/-- M6: the whole byte is used. -/
theorem test_ldF_whole_byte : after State.i (stepOn 0xF029 (State.reset.setReg 0 0xFF)) = some 0x04FB := by decide

/-- S6. -/
theorem test_ldB : after (fun t => (t.byte 0x300, t.byte 0x301, t.byte 0x302, t.i))
    (stepOn 0xF033 ((State.reset.setI 0x300).setReg 0 0x9C)) = some (1, 5, 6, 0x300) := by decide

/-- M8: nothing is written. -/
theorem test_ldB_past_memory : after (fun t => (fault t, t.byte 4094, t.byte 4095, t.pc))
    (stepOn 0xF033 ((State.reset.setI 0x0FFE).setReg 0 0xFF)) = some (some ⟨.memoryOutOfBounds, 0x200⟩, 0, 0, 0x202) := by
  decide

/-- M11. -/
theorem test_stRegs_to_the_end : after (fun t => (t.byte 4093, t.byte 4094, t.byte 4095, t.i))
    (stepOn 0xF255 ((((State.reset.setI 0x0FFD).setReg 0 1).setReg 1 2).setReg 2 3)) = some (1, 2, 3, 0x1000) := by decide

/-- M12. -/
theorem test_stRegs_past_memory : after (fun t => (fault t, t.byte 4094, t.i))
    (stepOn 0xF255 ((State.reset.setI 0x0FFE).setReg 0 1)) = some (some ⟨.memoryOutOfBounds, 0x200⟩, 0, 0x0FFE) := by decide

/-- M13. -/
theorem test_ldRegs : after (fun t => (t.reg 0, t.reg 1, t.reg 2, t.reg 3, t.i))
    (stepOn 0xF265 (bytesAt 0x300 [0xAA, 0xBB, 0xCC, 0xDD] (State.reset.setI 0x300))) =
      some (0xAA, 0xBB, 0xCC, 0, 0x0303) := by decide

/-- M15: the first byte of the font. -/
theorem test_ldRegs_reads_font : after (fun t => (t.reg 0, t.i)) (stepOn 0xF065 State.reset) = some (0xF0, 1) := by decide

/-- M16: the font can be overwritten. -/
theorem test_font_is_writable : after (fun t => (t.byte 0, fault t)) (stepOn 0xF055 State.reset) = some (0, none) := by decide

/-! Display. -/

/-- DS8. -/
theorem test_cls : after (fun t => (t.cell 5 3, t.reg 15))
    (stepOn 0x00E0 ((State.reset.setFb (Vector.replicate 2048 true)).setReg 15 1)) = some (false, 1) := by decide

/-- DS4: start coordinates are reduced, and bit 7 is the leftmost column. -/
theorem test_drw_reduces_coordinates : after (fun t => (t.cell 5 1, t.cell 6 1, t.cell 7 1, t.cell 8 1, t.reg 15))
    (stepOn 0xD011 (bytesAt 0x300 [0xC0] (((State.reset.setI 0x300).setReg 0 70).setReg 1 33))) =
      some (false, true, true, false, 0) := by decide

/-- DS3: cells wrap at the right edge and at the bottom. -/
theorem test_drw_wraps : after (fun t => (t.cell 60 31, t.cell 3 31, t.cell 4 31, t.cell 60 0, t.cell 61 0, t.cell 3 0))
    (stepOn 0xD012 (bytesAt 0x300 [0xFF, 0x81] (((State.reset.setI 0x300).setReg 0 60).setReg 1 31))) =
      some (true, true, false, true, false, true) := by decide +kernel

/-! Keys and timers. -/

/-- K1. -/
theorem test_skp : after (fun t => (t.pc, t.key 5)) (stepOn 0xE39E ((State.reset.setReg 3 5).setKey 5 .pressed)) =
    some (0x204, .pressed) := by decide

/-- K4. -/
theorem test_skp_no_such_key : after (fun t => (fault t, t.pc)) (stepOn 0xE09E (State.reset.setReg 0 16)) =
    some (some ⟨.keyIndexOutOfRange, 0x200⟩, 0x202) := by decide

/-- K3: a consumed key counts as not pressed. -/
theorem test_sknp_consumed : after State.pc (stepOn 0xE3A1 ((State.reset.setReg 3 5).setKey 5 .consumed)) = some 0x204 := by
  decide

/-- R212: no skip on a pressed key. -/
theorem test_sknp_pressed : after State.pc (stepOn 0xE3A1 ((State.reset.setReg 3 5).setKey 5 .pressed)) = some 0x202 := by
  decide

/-- K6: the lowest pressed key is taken. -/
theorem test_ldVxK_lowest : after (fun t => (t.reg 0, t.key 4, t.key 9, t.pc))
    (stepOn 0xF00A ((State.reset.setKey 9 .pressed).setKey 4 .pressed)) = some (4, .consumed, .pressed, 0x202) := by decide

/-- K5's first step: no key is pressed, and `PC` is where it was. -/
theorem test_ldVxK_retries : after (fun t => (t.pc, t.reg 4)) (stepOn 0xF40A State.reset) = some (0x200, 0) := by decide

/-- K9. -/
theorem test_ldVxDt : after (fun t => t.reg 5) (stepOn 0xF507 (State.reset.setDt 0x3C)) = some 0x3C := by decide

/-- K10. -/
theorem test_ldDtVx : after State.dt (stepOn 0xF515 (State.reset.setReg 5 0x3C)) = some 0x3C := by decide

/-- K11's first step. -/
theorem test_ldStVx : after State.st (stepOn 0xF618 (State.reset.setReg 6 2)) = some 2 := by decide

/-- K12: the store emits no beep. -/
theorem test_ldStVx_no_beep : (act .step ((State.reset.withFetchWord 16 0xF618).setSt 1)).map (·.2) =
    some [.stepped .next] := by decide

/-! Fetch, faults, ticks, keys, reset. -/

/-- E1: the empty ROM. -/
theorem test_empty_rom_halts : after (fun t => (fault t, t.pc)) (step State.reset) =
    some (some ⟨.unsupportedInstruction, 0x200⟩, 0x202) := by decide

/-- E7: byte 4095 exists, and the fetch still faults; `PC` is not advanced. -/
theorem test_fetch_at_last_byte : after (fun t => (fault t, t.pc)) (step (atPc 0x0FFF)) =
    some (some ⟨.memoryOutOfBounds, 0x0FFF⟩, 0x0FFF) := by decide

/-- CF21: a skip past the last opcode does not fault in its own step. -/
theorem test_skip_past_memory : after (fun t => (t.pc, fault t)) (stepOn 0x3000 (atPc 0x0FFC)) = some (0x1000, none) := by decide

/-- K13's ticks that end the delay timer, and the sound timer. -/
theorem test_tick : (tick ((State.reset.setDt 1).setSt 3)).map (fun r => (r.1.dt, r.1.st, r.2)) = some (0, 2, false) ∧
    (tick (State.reset.setSt 1)).map (fun r => (r.1.dt, r.1.st, r.2)) = some (0, 0, true) ∧
    (tick State.reset).map (fun r => (r.1.dt, r.1.st, r.2)) = some (0, 0, false) := by decide

/-- K7, K8. -/
theorem test_key_events : (keyPress 2 (State.reset.setKey 2 .consumed)).key 2 = .consumed ∧
    (keyRelease 2 (State.reset.setKey 2 .consumed)).key 2 = .released ∧ (keyPress 2 State.reset).key 2 = .pressed :=
  ⟨rfl, rfl, rfl⟩

/-- S9's rejected length, and R283's first byte. -/
theorem test_reset_rom_length : resetWith (Vector.replicate 80 0) (List.replicate 3585 0) State.reset = none := by
  rw [resetWith, if_neg (by rw [List.length_replicate]; decide)]

theorem test_reset_places_rom : (resetWith (Vector.replicate 80 7) [0x12, 0x34] State.reset).map
    (fun t => (t.byte 0, t.byte 79, t.byte 80, t.byte 0x200, t.byte 0x201, t.pc)) = some (7, 7, 0, 0x12, 0x34, 0x200) := by decide

/-- R259's fault port: the code of the cause and the address. -/
theorem test_faultPort : faultPort (State.reset.raise .keyIndexOutOfRange 0x200) = some (5, 0x200) := by decide

/-! The memory after reset is canonical. -/

theorem test_reset_memory_wf : State.reset.mem.wf = true := by decide

/-- Writing back what an unlisted byte reads as removes the entry. -/
theorem test_write_back_unlists : (bytesAt 0 [0xF0] (bytesAt 0 [0x11] State.reset)).mem = [] := by decide

/-! Witnesses: for each obligation with hypotheses, a concrete state and operands that meet them, one for each clause and at
the boundary where the clauses meet. -/

/-- The state after reset with `I` elsewhere. -/
def atI (w : Word) : State := State.reset.setI w

/-- The state after reset with an opcode at `PC`. -/
def placed (op : Nat) : State := State.reset.withFetchWord 16 op

theorem inv_of_empty_stack {s : State} (hm : s.mem.wf = true) (hp : s.pc.toNat ≤ 4350) (hs : s.sp = 0) : s.Inv :=
  ⟨hm, hp, fun j h => by rw [hs] at h; exact absurd h (Nat.not_lt_zero _)⟩

theorem reset_inv : State.reset.Inv := inv_of_empty_stack rfl (by decide) rfl

theorem witness_EncodeOfDecodeIsTheOpcode : decode 0x8FA6 = .ok (.shr 0xF 0xA) := rfl

theorem witness_DecodeFollowsTheOpcodeMap : Op.ret.row.selects 0x00EE = true ∧ Op.cls.row.selects 0x00E0 = true := by decide

theorem witness_IllegalOpcodesAreExactlyTheListedOnes :
    (State.reset.halt = none ∧ State.reset.pc.toNat ≤ 4094 ∧ illegalOpcode State.reset.opcodeAtPc.toNat = true) ∧
    ((atPc 0x0FFE).pc.toNat = 4094 ∧ illegalOpcode (atPc 0x0FFE).opcodeAtPc.toNat = true) ∧
    illegalOpcode 0x00DF = true ∧ illegalOpcode 0x00E0 = false ∧ illegalOpcode 0x00E1 = true ∧ illegalOpcode 0x5010 = false ∧
    illegalOpcode 0x5011 = true := by decide

theorem witness_AssemblyRoundTrips :
    (∀ x y, Instr.cls ≠ .shr x y) ∧ (∀ x y, Instr.cls ≠ .shl x y) ∧ (AsmLine.mk .jp [4096]).wellFormed = false :=
  ⟨fun _ _ => Instr.noConfusion, fun _ _ => Instr.noConfusion, by decide⟩

theorem witness_StepRunsTheDecodedInstruction :
    ((atPc 0x0FFE).withFetchWord 16 0x1234).halt = none ∧ ((atPc 0x0FFE).withFetchWord 16 0x1234).pc.toNat = 4094 ∧
    decode ((atPc 0x0FFE).withFetchWord 16 0x1234).opcodeAtPc = .ok (.jp 0x234) := ⟨rfl, rfl, rfl⟩

theorem witness_FetchIsBigEndianAndBounded :
    ((placed 0x1234).halt = none ∧ (placed 0x1234).pc.toNat + 1 ≤ 4095 ∧
      decode (BitVec.ofNat 16 (((placed 0x1234).byte 0x200).toNat * 256 + ((placed 0x1234).byte 0x201).toNat)) =
        .ok (.jp 0x234)) ∧
    (atPc 0x0FFE).pc.toNat + 1 = 4095 ∧ ((atPc 0x0FFF).halt = none ∧ 4095 < (atPc 0x0FFF).pc.toNat + 1) :=
  ⟨⟨rfl, by decide, rfl⟩, rfl, rfl, by decide⟩

theorem witness_RunningMachineAlwaysSteps : State.reset.halt = none := rfl

theorem witness_StepReportsItsOutcome :
    (∃ t, act .step (placed 0x6001) = some (t, [.stepped .next])) ∧
    (∃ t, act .step (placed 0xF00A) = some (t, [.stepped .retry])) ∧
    (∃ t, act .step State.reset = some (t, [.stepped (.fault .unsupportedInstruction)])) := ⟨⟨_, rfl⟩, ⟨_, rfl⟩, ⟨_, rfl⟩⟩

theorem witness_HaltedMachineOnlyReset :
    (State.reset.raise .stackOverflow 0x200).halt = some ⟨.stackOverflow, 0x200⟩ ∧
    (∃ t out, act (.keyPress 3) (State.reset.raise .stackOverflow 0x200) = some (t, out)) ∧
    (∃ t out, act (.reset (Vector.replicate 80 0) []) (State.reset.raise .stackOverflow 0x200) = some (t, out)) :=
  ⟨rfl, ⟨_, _, rfl⟩, ⟨_, _, rfl⟩⟩

theorem witness_StepKeepsTheInvariant :
    (State.reset.Inv ∧ ∃ t, step State.reset = .next t) ∧ ((placed 0x2300).Inv ∧ ∃ t, step (placed 0x2300) = .next t) :=
  ⟨⟨reset_inv, _, rfl⟩, inv_of_empty_stack (by decide) (by decide) rfl, _, rfl⟩

theorem witness_EveryExecutionKeepsTheInvariant :
    State.reset.Inv ∧ ∃ t out, run [.keyPress 1, .tick, .step, .snapshot] State.reset = some (t, out) :=
  ⟨reset_inv, _, _, rfl⟩

theorem witness_InstructionsFaultExactlyAsListed :
    State.reset.halt = none ∧ (∃ t, exec .ret State.reset = .next t) ∧ (∃ t, exec (.ldImm 0 1) State.reset = .next t) :=
  ⟨rfl, ⟨_, rfl⟩, ⟨_, rfl⟩⟩

theorem witness_FaultsArePrecise :
    expectedFault .ret State.reset = some .stackUnderflow ∧ expectedFault (.call 0x300) (withSp 16) = some .stackOverflow ∧
    expectedFault (.drw 0 0 1) (atI 0x1000) = some .memoryOutOfBounds ∧ expectedFault (.ldB 0) (atI 0x0FFE) = some .memoryOutOfBounds ∧
    expectedFault (.stRegs 15) (atI 0x0FF1) = some .memoryOutOfBounds ∧ expectedFault (.ldRegs 0) (atI 0x1000) = some .memoryOutOfBounds ∧
    expectedFault (.skp 0) (State.reset.setReg 0 16) = some .keyIndexOutOfRange ∧
    expectedFault (.sknp 0) (State.reset.setReg 0 16) = some .keyIndexOutOfRange ∧
    (∃ t, step State.reset = .next t ∧ t.halt = some ⟨.unsupportedInstruction, 0x200⟩) :=
  ⟨rfl, rfl, rfl, rfl, rfl, rfl, rfl, rfl, _, rfl, rfl⟩

theorem witness_ReturnPopsTheStack : 0 < (withSp 1).sp.val ∧ (withSp 0).sp.val = 0 := by decide

theorem witness_CallPushesAndJumps : (withSp 15).sp.val < 16 ∧ (withSp 16).sp.val = 16 := by decide

theorem witness_OnlyCallAndReturnTouchTheStack :
    (∃ t, exec .cls State.reset = .next t) ∧ Instr.cls.op ≠ .call ∧ Instr.cls.op ≠ .ret ∧ (withSp 16).sp.val = 16 ∧
    (withSp 0).sp.val = 0 := ⟨⟨_, rfl⟩, by decide, by decide, rfl, rfl⟩

theorem witness_AddAndSubtractSetTheFlag : (14#4 : Nibble) ≠ 15#4 ∧ (0#4 : Nibble) ≠ 15#4 := by decide

theorem witness_ShiftsSetTheFlag : (14#4 : Nibble) ≠ 15#4 := by decide

theorem witness_FlagFirstWhenVfIsAnOperand : (14#4 : Nibble) ≠ 15#4 := by decide

theorem witness_OnlySixInstructionsWriteTheFlag :
    ((∃ t, exec (.addImm 14 1) State.reset = .next t) ∧ xField (.addImm 14 1) ≠ some 15#4 ∧
      Instr.op (.addImm 14 1) ∉ [Op.addReg, .sub, .shr, .subn, .shl, .drw]) ∧
    ((∃ t, exec (.shl 14 0) State.reset = .next t) ∧ xField (.shl 14 0) ≠ some 15#4 ∧
      Instr.op (.shl 14 0) ∈ [Op.addReg, .sub, .shr, .subn, .shl]) ∧
    ((∃ t, exec (.drw 14 0 1) State.reset = .next t) ∧ xField (.drw 14 0 1) ≠ some 15#4 ∧
      expectedFault (.drw 14 0 1) State.reset = none) :=
  ⟨⟨⟨_, rfl⟩, by decide, by decide⟩, ⟨⟨_, rfl⟩, by decide, by decide⟩, ⟨⟨_, rfl⟩, by decide, rfl⟩⟩

theorem witness_MemoryReadsAndWritesOneByte : State.reset.Inv ∧ 4095 < 4096 ∧ 4096 ≤ 4096 := ⟨reset_inv, by decide, by decide⟩

theorem witness_DecimalDigitsAreStored :
    ((atI 4093).Inv ∧ (atI 4093).i.toNat ≤ 4093) ∧ ((atI 4094).Inv ∧ 4093 < (atI 4094).i.toNat) :=
  ⟨⟨inv_of_empty_stack rfl (by decide) rfl, by decide⟩, inv_of_empty_stack rfl (by decide) rfl, by decide⟩

theorem witness_RegistersAreStored :
    ((atI 4080).Inv ∧ (atI 4080).i.toNat + (15#4).toNat ≤ 4095) ∧ ((atI 4081).Inv ∧ 4095 < (atI 4081).i.toNat + (15#4).toNat) :=
  ⟨⟨inv_of_empty_stack rfl (by decide) rfl, by decide⟩, inv_of_empty_stack rfl (by decide) rfl, by decide⟩

theorem witness_RegistersAreLoaded :
    (atI 4080).i.toNat + (15#4).toNat ≤ 4095 ∧ 4095 < (atI 4081).i.toNat + (15#4).toNat := by decide

/-- `V[0]` and `V[1]` hold the two bytes of `1234`, to be stored at `PC`. -/
def aboutToStoreJp : State := ((atI 0x200).setReg 0 0x12).setReg 1 0x34

theorem witness_StoredBytesAreFetched :
    aboutToStoreJp.Inv ∧ aboutToStoreJp.halt = none ∧ aboutToStoreJp.i.toNat + (1#4).toNat ≤ 4095 ∧
    (0#4).toNat + 1 ≤ (1#4).toNat ∧ decode (wordOfBytes (aboutToStoreJp.reg 0#4) (aboutToStoreJp.reg (0#4 + 1))) = .ok (.jp 0x234) ∧
    (∃ t, exec (.stRegs 1#4) aboutToStoreJp = .next t) ∧ aboutToStoreJp.pc.toNat = aboutToStoreJp.i.toNat + (0#4).toNat :=
  ⟨inv_of_empty_stack rfl (by decide) rfl, rfl, by decide, by decide, rfl, ⟨_, rfl⟩, rfl⟩

/-- `JP` is outside every clause's list but `PC`'s, and `CLS` is outside `PC`'s. -/
theorem witness_EachPieceHasItsWriters :
    (∃ t, exec (.jp 0x300) State.reset = .next t) ∧ (∃ t, exec .cls State.reset = .next t) ∧
    Instr.op (.jp 0x300) ∉ [Op.ldImm, .addImm, .ldReg, .or, .and, .xor, .addReg, .sub, .shr, .subn, .shl, .rnd, .drw, .ldVxDt,
      .ldVxK, .ldRegs] ∧
    Instr.op (.jp 0x300) ∉ [Op.ldI, .addI, .ldF, .stRegs, .ldRegs, .ldB, .cls, .drw, .ldDtVx, .ldStVx, .call, .ret, .skp,
      .sknp] ∧
    Instr.op .cls ∉ [Op.ret, .jp, .call, .seImm, .sneImm, .seReg, .sneReg, .jpV0, .skp, .sknp, .ldVxK] :=
  ⟨⟨_, rfl⟩, ⟨_, rfl⟩, by decide, by decide, by decide⟩

theorem witness_SpriteFlipsTheCellsItCovers :
    ((0#4).toNat = 0 ∧ (atI 0xFFFF).i.toNat = 65535) ∧ (atI 4081).i.toNat + (15#4).toNat ≤ 4096 := by decide

/-- One cell of a sprite that was on before the draw, and one that was off. -/
theorem witness_SpriteFlipsTheCellsItCovers_flag :
    ((State.reset.setFb (Vector.replicate 2048 true)).spriteCovers 0 0 1 3 0 = true ∧
      (State.reset.setFb (Vector.replicate 2048 true)).cell 3 0 = true) ∧
    (∀ cx cy, cx < 64 → cy < 32 → State.reset.spriteCovers 0 0 1 cx cy = true → State.reset.cell cx cy = false) := by
  refine ⟨by decide, fun cx cy hx hy _ => ?_⟩
  rw [cell_eq _ _ _ (by omega)]
  exact Vector.getElem_replicate (by omega)

theorem witness_SpritePastMemoryFaults : 0 < (15#4).toNat ∧ 4096 < (atI 4082).i.toNat + (15#4).toNat := by decide

theorem witness_DrawingTwiceErases :
    (State.reset.i.toNat + (5#4).toNat ≤ 4096 ∧ (14#4 : Nibble) ≠ 15#4) ∧
    (∃ t u, exec (.drw 14 0 5) State.reset = .next t ∧ exec (.drw 14 0 5) t = .next u) ∧
    (State.reset.spriteCovers 14 0 5 3 0 = true ∧ State.reset.cell 3 0 = false) :=
  ⟨by decide, ⟨_, _, rfl, rfl⟩, by decide⟩

theorem witness_KeySkips : ((State.reset.setReg 0 15).reg 0).toNat ≤ 15 ∧ 15 < ((State.reset.setReg 0 16).reg 0).toNat := by
  decide

theorem witness_KeyWaitTakesTheLowestPressedKey :
    ((State.reset.setKey 0 .pressed).key 0#4 = .pressed ∧
      ∀ j : Nibble, j.toNat < (0#4).toNat → (State.reset.setKey 0 .pressed).key j ≠ .pressed) ∧
    ((State.reset.setKey 15 .pressed).key 15#4 = .pressed ∧
      ∀ j : Nibble, j.toNat < (15#4).toNat → (State.reset.setKey 15 .pressed).key j ≠ .pressed) := by decide

theorem witness_KeyWaitRetryChangesNothing :
    (placed 0xF00A).halt = none ∧ (placed 0xF00A).pc.toNat ≤ 4094 ∧ decode (placed 0xF00A).opcodeAtPc = .ok (.ldVxK 0) ∧
    ∀ j, (placed 0xF00A).key j ≠ .pressed := ⟨rfl, by decide, rfl, by decide⟩

theorem witness_OnePressSatisfiesOneWait :
    (State.reset.setKey 7 .pressed).key 7#4 = .pressed ∧
    (∀ j : Nibble, j ≠ 7#4 → (State.reset.setKey 7 .pressed).key j ≠ .pressed) ∧
    ∃ t, exec (.ldVxK 4) (State.reset.setKey 7 .pressed) = .next t := ⟨by decide, by decide, _, rfl⟩

theorem witness_KeyTransitionsAreTheListedOnes :
    (∃ t out, act (.keyPress 2) State.reset = some (t, out) ∧ t.key 2 ≠ State.reset.key 2) ∧
    (∃ t out, act .step ((placed 0xF00A).setKey 2 .pressed) = some (t, out) ∧
      t.key 2 ≠ ((placed 0xF00A).setKey 2 .pressed).key 2) ∧
    (∃ t out, act (.keyRelease 2) (State.reset.setKey 2 .consumed) = some (t, out) ∧
      t.key 2 ≠ (State.reset.setKey 2 .consumed).key 2) :=
  ⟨⟨_, _, rfl, by decide⟩, ⟨_, _, rfl, by decide⟩, ⟨_, _, rfl, by decide⟩⟩

theorem witness_SoundTimerWrite :
    (placed 0xF618).halt = none ∧ (placed 0xF618).pc.toNat ≤ 4094 ∧ decode (placed 0xF618).opcodeAtPc = .ok (.ldStVx 6) :=
  ⟨rfl, by decide, rfl⟩

theorem witness_TickCountsBothTimersDown :
    (State.reset.setSt 1).halt = none ∧ (State.reset.raise .stackUnderflow 0x200).halt ≠ none := ⟨rfl, by decide⟩

theorem witness_BeepExactlyWhenTheSoundTimerEnds :
    (∃ t out, act .tick (State.reset.setSt 1) = some (t, out)) ∧ (∃ t out, act .tick (State.reset.setSt 2) = some (t, out)) ∧
    (∃ t out, act (.keyPress 0) (State.reset.setSt 1) = some (t, out)) := ⟨⟨_, _, rfl⟩, ⟨_, _, rfl⟩, ⟨_, _, rfl⟩⟩

theorem witness_CountdownReachesZeroWithOneBeep : ((State.reset.setDt 60).setSt 1).halt = none := rfl

theorem witness_EnvironmentTouchesOnlyItsOwn :
    (∃ t out, act .tick State.reset = some (t, out)) ∧ State.reset.key 3 = .released ∧
    (State.reset.setKey 3 .consumed).key 3 ≠ .released := ⟨⟨_, _, rfl⟩, rfl, by decide⟩

theorem witness_OnlyPollingLearnsOfKeysAndTimers :
    Instr.op (.call 0x300) ∉ [Op.skp, .sknp, .ldVxK, .ldVxDt] ∧ State.reset.Inv ∧ (State.reset.setDt 9).Inv ∧
    SameBut [.keys, .dt, .st] State.reset (State.reset.setDt 9) ∧ ∃ t, exec (.call 0x300) State.reset = .next t :=
  ⟨by decide, reset_inv, inv_of_empty_stack rfl (by decide) rfl, (sameBut_setDt State.reset 9).mono (by decide), _, rfl⟩

theorem witness_ResetPlacesTheRomImage : (List.replicate 3584 (1#8)).length ≤ 3584 ∧ ([] : List Byte).length ≤ 3584 :=
  ⟨by rw [List.length_replicate], by decide⟩

theorem witness_ResetLeavesTheListedValues :
    (List.replicate 3584 (1#8)).length ≤ 3584 ∧ 3584 < (List.replicate 3585 (1#8)).length :=
  ⟨by rw [List.length_replicate], by rw [List.length_replicate]; decide⟩

theorem witness_EmptyRomHaltsAtOnce : ∃ t, resetWith (Vector.replicate 80 0) [] State.reset = some t := ⟨_, rfl⟩

theorem witness_PlacedWordIsRunNext :
    (atPc 0x0FFE).Inv ∧ (atPc 0x0FFE).halt = none ∧ (atPc 0x0FFE).pc.toNat ≤ 4094 :=
  ⟨inv_of_empty_stack rfl (by decide) rfl, rfl, by decide⟩

theorem witness_CompletedRunStaysPut : (placed 0x1200).completed :=
  ⟨rfl, by decide, by decide⟩

/-! Executions: a machine that spins in a jump to itself while its delay timer runs out, tick and step in turn. -/

/-- The states of the spin: the delay timer is 1 at first. -/
def spinStates : Nat → State
  | 0 => (placed 0x1200).setDt 1
  | _ + 1 => placed 0x1200

/-- The actions of the spin. -/
def spinActions (n : Nat) : Machine.Action := if n % 2 = 0 then .tick else .step

theorem spin_isExecution : IsExecution spinStates spinActions := by
  intro n
  have he : act .tick (placed 0x1200) = some (placed 0x1200, []) := rfl
  have ho : act .step (placed 0x1200) = some (placed 0x1200, [.stepped .next]) := rfl
  cases n with
  | zero => exact ⟨[], rfl⟩
  | succ n =>
    unfold spinActions
    split
    · exact ⟨_, he⟩
    · exact ⟨_, ho⟩

theorem spin_runsFrom : RunsFrom spinStates 0 := by
  intro m _
  cases m <;> rfl

theorem spin_fair : Fair spinStates spinActions := by
  refine fun _ => ⟨fun n => ⟨2 * n + 1, by omega, ?_⟩, fun n => ⟨2 * n, by omega, ?_⟩⟩
  · rw [spinActions, if_neg (by omega)]
  · rw [spinActions, if_pos (by omega)]

theorem witness_FairTicksRunTheDelayTimerOut :
    IsExecution spinStates spinActions ∧ Fair spinStates spinActions ∧ RunsFrom spinStates 0 ∧
    (∀ m, 0 ≤ m → ∀ font rom, spinActions m ≠ .reset font rom) ∧
    (∀ m, 0 ≤ m → spinActions m = .step → (spinStates (m + 1)).dt = (spinStates m).dt) := by
  refine ⟨spin_isExecution, spin_fair, spin_runsFrom, fun m _ font rom => ?_, fun m _ h => ?_⟩
  · unfold spinActions
    split <;> exact fun e => by cases e
  · cases m with
    | zero => cases h
    | succ m => rfl

/-! An execution that faults, is reset, and is then only looked at. -/

/-- The machine halts on the empty ROM, and a reset makes it run again. -/
def idleStates : Nat → State
  | 0 => State.reset
  | 1 => { State.reset with pc := 0x202, halt := some ⟨.unsupportedInstruction, 0x200⟩ }
  | _ + 2 => { State.reset with mem := resetMemory (Vector.replicate 80 7) [] }

/-- A step, a reset, and snapshots for ever. -/
def idleActions : Nat → Machine.Action
  | 0 => .step
  | 1 => .reset (Vector.replicate 80 7) []
  | _ + 2 => .snapshot

theorem test_idle_isExecution : IsExecution idleStates idleActions
  | 0 => ⟨_, rfl⟩
  | 1 => ⟨_, rfl⟩
  | _ + 2 => ⟨_, rfl⟩

/-- R256: that the machine was halted once does not free the environment of its duty. -/
theorem test_idle_not_fair : ¬ Fair idleStates idleActions := by
  intro h
  have hr : RunsFrom idleStates 2 := by
    intro m hm
    obtain ⟨k, rfl⟩ := Nat.exists_eq_add_of_le' hm
    rfl
  obtain ⟨m, hm, e⟩ := (h ⟨2, hr⟩).2 2
  obtain ⟨k, rfl⟩ := Nat.exists_eq_add_of_le' hm
  cases e

end Sys2Proof.Tests
end

section
/-! The outcome a step reports (spec/00_scope.md R13): the three values of `stepResult` by what each says of the states, and
the retrying step of `FX0A` (spec/44_keys_timers.md R214), which puts `PC` back and so ends where it began. -/

namespace Sys2Proof.Machine

/-- The reported outcome is a fault exactly when the machine has halted with that cause. -/
theorem stepResult_eq_fault_iff (s t : State) (c : FaultCause) :
    stepResult s t = .fault c ↔ t.halt.map (·.cause) = some c := by
  cases h : t.halt with
  | some r => simp [stepResult, h]
  | none => cases hr : s.retries <;> simp [stepResult, h, hr]

/-- The reported outcome is a retry exactly when the machine runs on from a state whose step retries. -/
theorem stepResult_eq_retry_iff (s t : State) : stepResult s t = .retry ↔ t.halt = none ∧ s.retries = true := by
  cases h : t.halt with
  | some r => simp [stepResult, h]
  | none => cases hr : s.retries <;> simp [stepResult, h, hr]

/-- A step retries exactly when `LD Vx, K` stands at an address that can be fetched and no key is `Pressed` (R214). -/
theorem State.retries_iff (s : State) :
    s.retries = true ↔
      s.pc.toNat ≤ 4094 ∧ (∃ x, decode s.opcodeAtPc = .ok (.ldVxK x)) ∧ s.lowestPressed = none := by
  have hkeys : s.advance.lowestPressed = s.lowestPressed := rfl
  rw [State.opcodeAtPc]
  rcases fetchDecode_cases s with ⟨hpc, hf⟩ | ⟨_, e, hd, hf⟩ | ⟨hpc, i, hd, hf⟩
  · simp only [State.retries, hf, Bool.false_eq_true, false_iff]
    omega
  · simp [State.retries, hf, hd]
  · cases i <;> simp [State.retries, hf, hd, hpc, hkeys]

/-- `LD Vx, K` with no key `Pressed` undoes the advance of `PC` and writes nothing (R214). -/
theorem exec_ldVxK_advance_of_none {s : State} (x : Nibble) (hkeys : s.lowestPressed = none) :
    exec (.ldVxK x) s.advance = .next s := by
  have hnone : s.advance.lowestPressed = none := hkeys
  have hback : s.advance.setPc (s.advance.pc - 2) = s := by
    rw [State.advance_pc, BitVec.add_sub_cancel]
    rfl
  simp only [exec, execLdVxK, hnone, hback]

/-- A step of a running machine that retries answers the very same state. -/
theorem step_eq_self_of_retries {s : State} (hrun : s.halt = none) (hr : s.retries = true) : step s = .next s := by
  obtain ⟨hpc, ⟨x, hd⟩, hkeys⟩ := s.retries_iff.1 hr
  rcases fetchDecode_cases s with ⟨hpast, _⟩ | ⟨_, e, he, _⟩ | ⟨_, i, hi, hf⟩
  · omega
  · cases hd.symm.trans he
  · cases hd.symm.trans hi
    simp only [step, hrun, hf]
    exact exec_ldVxK_advance_of_none x hkeys

/-- A step that happens reports the one outcome `stepResult` gives. -/
theorem act_step_eq_some {s t : State} {out : List Output} (h : act .step s = some (t, out)) :
    step s = .next t ∧ out = [.stepped (stepResult s t)] := by
  rcases act_cases h with ⟨_, hstep, hout⟩ | ⟨ha, _⟩ | ⟨_, ha, _⟩ | ⟨_, ha, _⟩ | ⟨ha, _⟩ | ⟨_, _, ha, _⟩
  · exact ⟨hstep, hout⟩
  all_goals cases ha

/-- Settles O10: the outcome is `stepResult`, and a step that reports a retry is the step of a retrying state. -/
theorem stepReportsItsOutcome : Obligations.StepReportsItsOutcome := by
  intro s t out h
  obtain ⟨hstep, hout⟩ := act_step_eq_some h
  refine ⟨stepResult s t, hout, stepResult_eq_fault_iff s t, fun hretry => ?_⟩
  obtain ⟨-, hr⟩ := (stepResult_eq_retry_iff s t).1 hretry
  obtain ⟨hrun, -⟩ := step_cases hstep
  obtain ⟨-, hd, -⟩ := s.retries_iff.1 hr
  have hsame : Host.Outcome.next t = .next s := hstep.symm.trans (step_eq_self_of_retries hrun hr)
  exact ⟨Host.Outcome.next.inj hsame, hd⟩

end Sys2Proof.Machine
end

section
/-! What each instruction can write (spec/10_state.md R30, spec/60_exceptions.md R236): the pieces of state outside an
instruction's list are left alone, whether it completes or takes its fault. The stack's discipline follows. -/

namespace Sys2Proof.Machine

/-! Frames of composed updates, of the stack's operations, and of an answer that may take a fault. -/

/-- Two updates in a row change what either of them changes. -/
theorem SameBut.append {cs ds : List Piece} {s t u : State} (h : SameBut cs s t) (g : SameBut ds t u) :
    SameBut (cs ++ ds) s u :=
  (h.mono fun _ => List.mem_append_left ds).trans (g.mono fun _ => List.mem_append_right cs)

/-- A successful `push` changes `STACK` and `SP` alone (R31). -/
theorem sameBut_push {s t : State} {w : Word} (h : s.push w = .ok t) : SameBut [.stack, .sp] s t := by
  rcases push_cases s w with ⟨_, e⟩ | ⟨_, e⟩ <;> cases h.symm.trans e
  simp [SameBut, State.byte, State.reg, State.key]

/-- A successful `pop` changes `SP` alone (R32): the entry stays in the array. -/
theorem sameBut_pop {s : State} {r : Word × State} (h : s.pop = .ok r) : SameBut [.sp] s r.2 := by
  rcases pop_cases s with ⟨_, e⟩ | ⟨_, e⟩ <;> cases h.symm.trans e
  simp [SameBut, State.byte, State.reg, State.key]

/-- A successful store changes memory alone (R62). -/
theorem sameBut_storeBytes {s t : State} {a : Nat} {vs : List Byte} (h : s.storeBytes a vs = .ok t) : SameBut [.mem] s t := by
  rcases storeBytes_cases s a vs with ⟨_, e⟩ | ⟨_, _, e⟩ <;> cases h.symm.trans e
  exact sameBut_setMem s _

/-- An answer changes what its computation changes when that succeeds, and `HALT` when it faults (R236). -/
theorem sameBut_complete {cs : List Piece} {s t : State} {r : Except FaultCause State} (h : complete s r = .next t)
    (hok : r = .ok t → SameBut cs s t) : SameBut (.halt :: cs) s t := by
  rcases complete_cases h with e | ⟨c, -, rfl⟩
  · exact (hok e).mono fun _ => List.mem_cons_of_mem _
  · exact (sameBut_raise s c _).mono (by simp)

/-- The same for an answer computed from the result of an operation that may fault. -/
theorem sameBut_complete_map {α : Type} {cs : List Piece} {s t : State} {r : Except FaultCause α} {f : α → State}
    (h : complete s (r.map f) = .next t) (hok : ∀ a, r = .ok a → SameBut cs s (f a)) : SameBut (.halt :: cs) s t := by
  refine sameBut_complete h fun e => ?_
  cases r with
  | error c => cases e
  | ok a => cases e; exact hok a rfl

/-! The frame of every instruction. -/

/-- The pieces of state an instruction of a row may change, `PC` beyond its advance and `HALT` by a fault included. -/
def piecesWritten : Op → List Piece
  | .cls => [.fb]
  | .ret => [.halt, .sp, .pc]
  | .call => [.halt, .stack, .sp, .pc]
  | .jp | .jpV0 | .seImm | .sneImm | .seReg | .sneReg => [.pc]
  | .skp | .sknp => [.halt, .pc]
  | .ldImm | .addImm | .ldReg | .or | .and | .xor | .addReg | .sub | .shr | .subn | .shl | .ldVxDt => [.v]
  | .rnd => [.v, .draws]
  | .drw => [.halt, .fb, .v]
  | .ldVxK => [.v, .keys, .pc]
  | .ldDtVx => [.dt]
  | .ldStVx => [.st]
  | .ldI | .addI | .ldF => [.i]
  | .ldB => [.halt, .mem]
  | .stRegs => [.halt, .mem, .i]
  | .ldRegs => [.halt, .v, .i]

/-- `LD Vx, K` writes a register and consumes a key, or puts `PC` back (R214). -/
theorem sameBut_execLdVxK {x : Nibble} {s t : State} (h : execLdVxK x s = .next t) : SameBut [.v, .keys, .pc] s t := by
  unfold execLdVxK at h
  split at h <;> cases h
  · exact ((sameBut_setReg s x _).append (sameBut_consume _ _)).mono (by simp)
  · exact (sameBut_setPc s _).mono (by simp)

/-- Every instruction leaves alone what its row does not write. -/
theorem exec_sameBut {i : Instr} {s t : State} (h : exec i s = .next t) : SameBut (piecesWritten i.op) s t := by
  cases i with
  | cls => cases h; exact sameBut_setFb s _
  | ret => exact sameBut_complete_map h fun r e => (sameBut_pop e).append (sameBut_setPc r.2 _)
  | call nnn => exact sameBut_complete_map h fun u e => (sameBut_push e).append (sameBut_setPc u _)
  | jp | jpV0 => cases h; exact sameBut_setPc s _
  | seImm | sneImm | seReg | sneReg => cases h; exact sameBut_skipIf s _
  | skp | sknp => exact sameBut_complete_map h fun _ _ => sameBut_skipIf s _
  | ldImm | addImm | ldReg | or | and | xor | ldVxDt => cases h; exact sameBut_setReg s _ _
  | addReg | sub | shr | subn | shl => cases h; exact sameBut_flagThenResult s _ _ _
  | rnd => cases h; exact (sameBut_setReg s _ _).append (sameBut_countDraw _)
  | drw => exact sameBut_complete_map h fun _ _ => (sameBut_setFb s _).append (sameBut_setReg _ _ _)
  | ldVxK => exact sameBut_execLdVxK h
  | ldDtVx => cases h; exact sameBut_setDt s _
  | ldStVx => cases h; exact sameBut_setSt s _
  | ldI | ldF => cases h; exact sameBut_setI s _
  | addI => cases h; exact sameBut_addToI s _
  | ldB => exact sameBut_complete h sameBut_storeBytes
  | stRegs => exact sameBut_complete_map h fun u e => (sameBut_storeBytes e).append (sameBut_addToI u _)
  | ldRegs => exact sameBut_complete_map h fun _ _ => (sameBut_setRegsFrom s _ _).append (sameBut_addToI _ _)

/-! The stack's discipline (R30). -/

/-- Among the rows only `CALL` and `RET` list `STACK` or `SP`. -/
theorem eq_call_or_ret_of_mem_piecesWritten {o : Op} (h : .stack ∈ piecesWritten o ∨ .sp ∈ piecesWritten o) :
    o = .call ∨ o = .ret := by
  revert h
  cases o <;> decide

/-- Any other instruction leaves the stack and its pointer. -/
theorem stack_sp_eq_of_exec {i : Instr} {s t : State} (h : exec i s = .next t) (hcall : i.op ≠ .call) (hret : i.op ≠ .ret) :
    t.stack = s.stack ∧ t.sp = s.sp := by
  obtain ⟨-, -, -, -, hstack, hsp, -⟩ := exec_sameBut h
  have hnot : ¬ (.stack ∈ piecesWritten i.op ∨ .sp ∈ piecesWritten i.op) := fun hm =>
    (eq_call_or_ret_of_mem_piecesWritten hm).elim hcall hret
  obtain ⟨hs, hp⟩ := not_or.1 hnot
  exact ⟨hstack hs, hsp hp⟩

/-- `CALL` on a full stack takes its fault (R31, R123). -/
theorem exec_call_of_full {s : State} (nnn : Addr) (h : s.sp.val = 16) :
    exec (.call nnn) s = .next (s.raise .stackOverflow s.opcodeAt) := by
  rcases push_cases s s.pc with ⟨hroom, _⟩ | ⟨_, e⟩
  · omega
  · simp only [exec, execCall, e, Except.map, complete_error]

/-- `RET` on an empty stack takes its fault (R32, R121). -/
theorem exec_ret_of_empty {s : State} (h : s.sp.val = 0) :
    exec .ret s = .next (s.raise .stackUnderflow s.opcodeAt) := by
  rcases pop_cases s with ⟨hfilled, _⟩ | ⟨_, e⟩
  · omega
  · simp only [exec, execRet, e, Except.map, complete_error]

/-- Settles O21: the bound is `SP`'s type, the frame is the instructions' lists, and the two faults are the ends of the stack. -/
theorem onlyCallAndReturnTouchTheStack : Obligations.OnlyCallAndReturnTouchTheStack := by
  refine ⟨fun i s t h => ⟨Nat.le_of_lt_succ t.sp.isLt, stack_sp_eq_of_exec h⟩, fun nnn s hfull => ?_, fun s hempty => ?_⟩
  · exact ⟨_, exec_call_of_full nnn hfull, tookFault_raise s _ _⟩
  · exact ⟨_, exec_ret_of_empty hempty, tookFault_raise s _ _⟩

end Sys2Proof.Machine
end

section
/-! The one-byte accesses (spec/20_memory.md R61, R62): the access operations on a single byte, below the end of memory and
past it. -/

namespace Sys2Proof.Machine

/-- `MemRead(a, 1)` at an address that exists gives its byte (R61). -/
theorem loadBytes_one_of_lt {s : State} {a : Nat} (h : a < 4096) : s.loadBytes a 1 = .ok [s.byte a] :=
  loadBytes_fits (.inr h)

/-- `MemWrite(a, 1, v)` at an address that exists is one write to memory, whatever the address (R62, R28). -/
theorem storeBytes_one_of_lt {s : State} {a : Nat} {v : Byte} (h : a < 4096) :
    s.storeBytes a [v] = .ok (s.setMem (s.mem.write a v)) :=
  storeBytes_fits (.inr h)

/-- Settles O29: in bounds by what memory reads after a write, past the end by the check on the range. -/
theorem memoryReadsAndWritesOneByte : Obligations.MemoryReadsAndWritesOneByte := by
  rintro s a v ⟨hwf, -, -⟩
  refine ⟨fun hlt => ⟨loadBytes_one_of_lt hlt, s.setMem (s.mem.write a v), storeBytes_one_of_lt hlt, ?_, ?_, ?_⟩,
    fun hge => ⟨?_, ?_⟩⟩
  · exact Memory.read_write_same hwf a v
  · exact fun b hb => Memory.read_write_other hb s.mem v
  · exact sameBut_setMem s _
  · exact loadBytes_past Nat.one_pos (Nat.lt_succ_of_le hge)
  · exact storeBytes_past Nat.one_pos (Nat.lt_succ_of_le hge)

end Sys2Proof.Machine
end

section
/-! The legal opcodes (spec/30_encoding.md R94, R98): what each family of the decoder accepts, R98's list read as the
complement of that, and the step that fetches an opcode which does not decode. -/

namespace Sys2Proof

/-- Family 0 decodes its two whole words. -/
theorem exists_decodeFam0_eq_ok_iff (op : Word) : (∃ i, decodeFam0 op = .ok i) ↔ op = 0x00E0#16 ∨ op = 0x00EE#16 := by
  unfold decodeFam0
  split_ifs <;> simp [*]

/-- Family 8 decodes every low nibble but the seven of R98. -/
theorem exists_decodeFam8_eq_ok_iff (op : Word) :
    (∃ i, decodeFam8 op = .ok i) ↔ (fieldN op).toNat ∉ [0x8, 0x9, 0xA, 0xB, 0xC, 0xD, 0xF] := by
  unfold decodeFam8
  dsimp only
  split
  case h_10 => -- a nibble outside the nine patterns
    have hn : (fieldN op).toNat < 16 := (fieldN op).isLt
    have hmem : (fieldN op).toNat ∈ [0x8, 0x9, 0xA, 0xB, 0xC, 0xD, 0xF] := by
      simp only [imp_false, List.mem_cons, List.not_mem_nil] at *
      omega
    simp only [hmem, not_true_eq_false, reduceCtorEq, exists_false]
  all_goals simp [*]

/-- Family E decodes the low bytes of its two key skips. -/
theorem exists_decodeFamE_eq_ok_iff (op : Word) : (∃ i, decodeFamE op = .ok i) ↔ fieldNN op ∈ [0x9E#8, 0xA1#8] := by
  unfold decodeFamE
  dsimp only
  split_ifs <;> simp [*]

/-- Family F decodes the low bytes of its nine rows. -/
theorem exists_decodeFamF_eq_ok_iff (op : Word) :
    (∃ i, decodeFamF op = .ok i) ↔
      fieldNN op ∈ [0x07#8, 0x0A#8, 0x15#8, 0x18#8, 0x1E#8, 0x29#8, 0x33#8, 0x55#8, 0x65#8] := by
  unfold decodeFamF
  dsimp only
  split_ifs <;> simp [*]

/-- R98's list leaves out an opcode exactly when its family accepts it; families 5 and 9 accept the low nibble 0 (C1). -/
theorem illegalOpcode_eq_false_iff (op : Word) :
    Machine.illegalOpcode op.toNat = false ↔
      ((fieldFam op).toNat = 0x0 → ∃ i, decodeFam0 op = .ok i) ∧
      ((fieldFam op).toNat = 0x5 ∨ (fieldFam op).toNat = 0x9 → fieldN op = 0#4) ∧
      ((fieldFam op).toNat = 0x8 → ∃ i, decodeFam8 op = .ok i) ∧
      ((fieldFam op).toNat = 0xE → ∃ i, decodeFamE op = .ok i) ∧
      ((fieldFam op).toNat = 0xF → ∃ i, decodeFamF op = .ok i) := by
  rw [exists_decodeFam0_eq_ok_iff, exists_decodeFam8_eq_ok_iff, exists_decodeFamE_eq_ok_iff, exists_decodeFamF_eq_ok_iff]
  simp [Machine.illegalOpcode, BitVec.toNat_eq, fieldFam_toNat, fieldN_toNat, fieldNN_toNat, or_iff_not_imp_left, and_assoc]

/-- An opcode decodes exactly when R98 does not list it: `decode` passes families 0, 8, E and F on, checks the low nibble of
5 and 9, and accepts all of the others. -/
theorem exists_decode_eq_ok_iff (op : Word) : (∃ i, decode op = .ok i) ↔ Machine.illegalOpcode op.toNat = false := by
  rw [illegalOpcode_eq_false_iff]
  unfold decode
  dsimp only
  split
  case h_6 | h_10 => -- families 5 and 9
    split_ifs <;> simp [*]
  case h_16 => -- the last pattern is family F alone
    have hfam : (fieldFam op).toNat = 0xF := by
      have hlt : (fieldFam op).toNat < 16 := (fieldFam op).isLt
      simp only [imp_false] at *
      omega
    simp [hfam]
  all_goals simp [*]

end Sys2Proof

namespace Sys2Proof.Machine

/-- A running machine that fetches an opcode which does not decode takes the fault with `PC` advanced (R98, R238). -/
theorem step_of_not_decodes {s : State} (hrun : s.halt = none) (hpc : s.pc.toNat ≤ 4094)
    (hbad : ¬ ∃ i, decode s.opcodeAtPc = .ok i) :
    step s = .next (s.advance.raise .unsupportedInstruction s.pc) := by
  rcases fetchDecode_cases s with ⟨hpast, _⟩ | ⟨_, _, _, hf⟩ | ⟨_, i, hd, _⟩
  · omega
  · simp only [step, hrun, hf]
  · exact absurd ⟨i, hd⟩ hbad

/-- Settles O4: R98's list is the complement of what decodes, and the step that finds no instruction advances and faults. -/
theorem illegalOpcodesAreExactlyTheListedOnes : Obligations.IllegalOpcodesAreExactlyTheListedOnes := by
  refine ⟨fun s hrun hpc hill => ?_, fun op hlegal => (exists_decode_eq_ok_iff op).2 hlegal⟩
  have hbad : ¬ ∃ i, decode s.opcodeAtPc = .ok i := by simp [exists_decode_eq_ok_iff, hill]
  refine ⟨_, step_of_not_decodes hrun hpc hbad, ⟨s.pc, rfl⟩, rfl, ?_⟩
  exact ((sameBut_advance s).append (sameBut_raise s.advance _ s.pc)).mono (by decide)

end Sys2Proof.Machine
end

section
/-! Control flow (spec/40_control_flow.md): what `RET` and `CALL` do to the call stack through the one stack operation each
performs, the addresses the jumps put into `PC`, and the skip the four register comparisons share. -/

namespace Sys2Proof.Machine

/-! The call stack's entries (R30 to R32). -/

/-- `pop` on a stack in use answers the entry below `SP` and lowers `SP` (R32). -/
theorem exists_pop_eq_ok {s : State} (h : 0 < s.sp.val) :
    ∃ u, s.pop = .ok (s.stackEntry (s.sp.val - 1), u) ∧ u.sp.val = s.sp.val - 1 := by
  rcases pop_cases s with ⟨_, e⟩ | ⟨hempty, _⟩
  · rw [stackEntry_eq s _ (by omega)]
    exact ⟨_, e, rfl⟩
  · omega

/-- Writing one entry of the array sets that entry and keeps the others. -/
theorem stackEntry_set (s : State) {k : Nat} (hk : k < 16) (w : Word) (p : Fin 17) (j : Nat) :
    State.stackEntry { s with stack := s.stack.set k w hk, sp := p } j = if j = k then w else s.stackEntry j := by
  by_cases hj : j < 16
  · rw [stackEntry_eq _ j hj, stackEntry_eq s j hj, Vector.getElem_set]
    simp only [@eq_comm Nat k j]
  · rw [if_neg (by omega)]
    simp [State.stackEntry, List.getD_eq_getElem?_getD, hj]

/-- `push` on a stack with room sets the entry at `SP`, keeps the others and raises `SP` (R31). -/
theorem exists_push_eq_ok {s : State} (w : Word) (h : s.sp.val < 16) :
    ∃ u, s.push w = .ok u ∧ u.sp.val = s.sp.val + 1 ∧
      ∀ j, u.stackEntry j = if j = s.sp.val then w else s.stackEntry j := by
  rcases push_cases s w with ⟨hroom, e⟩ | ⟨hfull, _⟩
  · exact ⟨_, e, rfl, stackEntry_set s hroom w _⟩
  · omega

/-- `RET` jumps to the entry `pop` answers (R121). -/
theorem exec_ret_of_pop {s u : State} {w : Word} (h : s.pop = .ok (w, u)) : exec .ret s = .next (u.setPc w) := by
  simp only [exec, execRet, h, Except.map, complete_ok]

/-- `CALL` jumps from the state `push` answers for the advanced `PC` (R123). -/
theorem exec_call_of_push {s u : State} (nnn : Addr) (h : s.push s.pc = .ok u) :
    exec (.call nnn) s = .next (u.setPc (target nnn)) := by
  simp only [exec, execCall, h, Except.map, complete_ok]

/-! Jump targets (R93, R122, R129). -/

theorem toNat_target (nnn : Addr) : (target nnn).toNat = nnn.toNat :=
  BitVec.toNat_setWidth_of_le (by decide)

theorem toNat_regWord (s : State) (x : Nibble) : (s.regWord x).toNat = (s.reg x).toNat :=
  BitVec.toNat_setWidth_of_le (by decide)

/-- The target of `JP V0` is at most 4095 + 255, so the 16-bit sum does not wrap. -/
theorem toNat_target_add_regWord (nnn : Addr) (s : State) (x : Nibble) :
    (target nnn + s.regWord x).toNat = nnn.toNat + (s.reg x).toNat := by
  have := nnn.isLt
  have := (s.reg x).isLt
  rw [BitVec.toNat_add, toNat_target, toNat_regWord]
  omega

/-! Conditional skips (R120, R124 to R127). -/

/-- A skip on equal bytes. -/
theorem skipIf_beq (s : State) (a b : Byte) :
    (s.skipIf (a == b)).pc = (if a.toNat = b.toNat then s.pc + 2 else s.pc) ∧ SameBut [.pc] s (s.skipIf (a == b)) := by
  refine ⟨?_, sameBut_skipIf s _⟩
  simp only [skipIf_eq, beq_iff_eq, BitVec.toNat_inj]

/-- A skip on differing bytes. -/
theorem skipIf_bne (s : State) (a b : Byte) :
    (s.skipIf (a != b)).pc = (if a.toNat = b.toNat then s.pc else s.pc + 2) ∧ SameBut [.pc] s (s.skipIf (a != b)) := by
  refine ⟨?_, sameBut_skipIf s _⟩
  simp only [skipIf_eq, bne_iff_ne, ne_eq, ite_not, BitVec.toNat_inj]

/-! The statements. -/

/-- Settles O17: a stack in use by what `pop` answers, an empty one by the fault of `RET`. -/
theorem returnPopsTheStack : Obligations.ReturnPopsTheStack := by
  refine fun s => ⟨fun hused => ?_, fun hempty => ?_⟩
  · obtain ⟨u, hpop, hsp⟩ := exists_pop_eq_ok hused
    refine ⟨_, exec_ret_of_pop hpop, rfl, hsp, ?_⟩
    exact ((sameBut_pop hpop).append (sameBut_setPc u _)).mono (by decide)
  · exact ⟨_, exec_ret_of_empty hempty, tookFault_raise s _ _⟩

/-- Settles O18: a stack with room by what `push` answers, a full one by the fault of `CALL`. -/
theorem callPushesAndJumps : Obligations.CallPushesAndJumps := by
  refine fun nnn s => ⟨fun hroom => ?_, fun hfull => ?_⟩
  · obtain ⟨u, hpush, hsp, hentry⟩ := exists_push_eq_ok s.pc hroom
    refine ⟨_, exec_call_of_push nnn hpush, toNat_target nnn, hsp, ?_, fun j hj => ?_, ?_⟩
    · exact (hentry s.sp.val).trans (if_pos rfl)
    · exact (hentry j).trans (if_neg hj)
    · exact ((sameBut_push hpush).append (sameBut_setPc u _)).mono (by decide)
  · exact ⟨_, exec_call_of_full nnn hfull, tookFault_raise s _ _⟩

/-- Settles O20: each of the four is the skip on equal or on differing bytes. -/
theorem conditionalSkips : Obligations.ConditionalSkips := by
  refine ⟨fun x nn s => ?_, fun x nn s => ?_, fun x y s => ?_, fun x y s => ?_⟩
  · exact ⟨_, rfl, skipIf_beq s (s.reg x) nn⟩
  · exact ⟨_, rfl, skipIf_bne s (s.reg x) nn⟩
  · exact ⟨_, rfl, skipIf_beq s (s.reg x) (s.reg y)⟩
  · exact ⟨_, rfl, skipIf_bne s (s.reg x) (s.reg y)⟩

/-- Settles O19: the target's number is `NNN`, with `V[0]` added for `JP V0`, and `PC` alone is written. -/
theorem jumpsSetPc : Obligations.JumpsSetPc := by
  refine ⟨fun nnn s => ?_, fun nnn s => ?_⟩
  · exact ⟨_, rfl, toNat_target nnn, sameBut_setPc s _⟩
  · exact ⟨_, rfl, toNat_target_add_regWord nnn s 0#4, sameBut_setPc s _⟩

end Sys2Proof.Machine
end

section
/-! Loads, arithmetic and logic without a flag (spec/41_alu.md R140 to R145): each of these instructions is one register
write, so one lemma gives the frame of all of them and only the written value is left to each. -/

namespace Sys2Proof.Machine

/-- An answer that is one register write completes, and changes no other register and no other piece. -/
theorem completes_of_eq_setReg {o : Answer} {s : State} {x : Nibble} {b : Byte} {P : State → Prop}
    (ho : o = .next (s.setReg x b)) (hP : P (s.setReg x b)) :
    Completes o fun t => P t ∧ RegsSameBut [x] s t ∧ SameBut [.v] s t :=
  ⟨_, ho, hP, regsSameBut_setReg s x b, sameBut_setReg s x b⟩

/-- Settles O22: both write `V[X]`, and a sum of bytes is their sum modulo 256. -/
theorem immediateLoadAndAdd : Obligations.ImmediateLoadAndAdd := by
  refine ⟨fun x nn s => completes_of_eq_setReg rfl ?_, fun x nn s => completes_of_eq_setReg rfl ?_⟩
  · exact State.reg_setReg_same s x nn
  · rw [State.reg_setReg_same, BitVec.toNat_add]

/-- Settles O23: all four write `V[X]`, and the three logic operations act on each bit by itself. -/
theorem copyAndLogic : Obligations.CopyAndLogic := by
  refine ⟨fun x y s => completes_of_eq_setReg rfl ?_, fun x y s => completes_of_eq_setReg rfl fun k => ?_,
    fun x y s => completes_of_eq_setReg rfl fun k => ?_, fun x y s => completes_of_eq_setReg rfl fun k => ?_⟩
  · exact State.reg_setReg_same s x (s.reg y)
  · rw [State.reg_setReg_same, BitVec.getLsbD_or]
  · rw [State.reg_setReg_same, BitVec.getLsbD_and]
  · rw [State.reg_setReg_same, BitVec.getLsbD_xor]

end Sys2Proof.Machine
end

section
/-! The index register and the memory transfers (spec/42_index_memory.md R171, R174 to R176): what a store or a load of a whole
range that fits in memory does to each byte, and the fault of one that does not, which each transfer then cites. -/

namespace Sys2Proof.Machine

/-! Ranges that fit in memory (R61, R62, R67). -/

/-- A store that fits puts its bytes at ascending addresses and keeps every byte outside them. -/
theorem exists_storeBytes_eq_ok {s : State} {a : Nat} {vs : List Byte} (hwf : s.mem.wf = true) (h : a + vs.length ≤ 4096) :
    ∃ u, s.storeBytes a vs = .ok u ∧ (∀ (k : Nat) (hk : k < vs.length), u.byte (a + k) = vs[k]) ∧
      ∀ b, b < a ∨ a + vs.length ≤ b → u.byte b = s.byte b :=
  ⟨_, storeBytes_fits (.inr h), fun _ hk => Memory.read_writeList_at hwf h hk, fun _ hb => Memory.read_writeList_other hb⟩

/-- A load that fits answers the bytes at ascending addresses. -/
theorem exists_loadBytes_eq_ok {s : State} {a n : Nat} (h : a + n ≤ 4096) :
    ∃ bs, s.loadBytes a n = .ok bs ∧ bs.length = n ∧ ∀ (k : Nat) (hk : k < bs.length), bs[k] = s.byte (a + k) :=
  ⟨_, loadBytes_fits (.inr h), Memory.length_readList s.mem a n, Memory.getElem_readList s.mem a n⟩

/-! Faulting answers (R236). -/

/-- An answer whose computation faults takes that fault. -/
theorem completes_tookFault {s : State} {c : FaultCause} {r : Except FaultCause State} (h : r = .error c) :
    Completes (complete s r) fun t => TookFault c s t := by
  subst h
  exact ⟨_, rfl, tookFault_raise s c _⟩

/-- The same for an answer computed from the result of an operation that faults. -/
theorem completes_tookFault_map {α : Type} {s : State} {c : FaultCause} {r : Except FaultCause α} {f : α → State}
    (h : r = .error c) : Completes (complete s (r.map f)) fun t => TookFault c s t :=
  completes_tookFault (congrArg (Except.map f) h)

/-! The transfers' answers when their access succeeds. -/

theorem exec_ldB_of_storeBytes {x : Nibble} {s u : State} (h : s.storeBytes s.i.toNat (bcdDigits (s.reg x)) = .ok u) :
    exec (.ldB x) s = .next u := by
  simp only [exec, execLdB, State.dataBase, h, complete_ok]

theorem exec_stRegs_of_storeBytes {x : Nibble} {s u : State} (h : s.storeBytes s.i.toNat (s.regsUpTo x) = .ok u) :
    exec (.stRegs x) s = .next (u.addToI (x.toNat + 1)) := by
  simp only [exec, execStRegs, State.dataBase, h, Except.map, complete_ok]

theorem exec_ldRegs_of_loadBytes {x : Nibble} {s : State} {bs : List Byte} (h : s.loadBytes s.i.toNat (x.toNat + 1) = .ok bs) :
    exec (.ldRegs x) s = .next ((s.setRegsFrom 0 bs).addToI (x.toNat + 1)) := by
  simp only [exec, execLdRegs, State.dataBase, h, Except.map, complete_ok]

/-! What the transfers compute. -/

@[simp] theorem State.byte_addToI (s : State) (n a : Nat) : (s.addToI n).byte a = s.byte a := rfl

@[simp] theorem State.reg_addToI (s : State) (n : Nat) (y : Nibble) : (s.addToI n).reg y = s.reg y := rfl

/-- An advance of `I` that stays below 65536 does not wrap (R24). -/
theorem toNat_addToI {s : State} {n : Nat} (h : s.i.toNat + n < 65536) : (s.addToI n).i.toNat = s.i.toNat + n :=
  (BitVec.toNat_ofNat _ _).trans (Nat.mod_eq_of_lt h)

@[simp] theorem length_bcdDigits (b : Byte) : (bcdDigits b).length = 3 := rfl

/-- The digits of a byte fit in bytes, so storing them loses nothing (R174). -/
theorem toNat_getElem_bcdDigits (b : Byte) :
    (bcdDigits b)[0].toNat = b.toNat / 100 ∧ (bcdDigits b)[1].toNat = b.toNat / 10 % 10 ∧
      (bcdDigits b)[2].toNat = b.toNat % 10 := by
  have := b.isLt
  simp only [bcdDigits, List.getElem_cons_zero, List.getElem_cons_succ, BitVec.toNat_ofNat]
  omega

/-! The statements. -/

/-- Settles O30: `NNN` is widened to the index register's width, and `I` alone is written. -/
theorem loadIndex : Obligations.LoadIndex :=
  fun nnn s => ⟨_, rfl, toNat_target nnn, sameBut_setI s _⟩

/-- Settles O32: the three digits are one store, which fits or takes its fault. -/
theorem decimalDigitsAreStored : Obligations.DecimalDigitsAreStored := by
  rintro x s ⟨hwf, -, -⟩
  refine ⟨fun hfits => ?_, fun hpast => completes_tookFault (storeBytes_past ?_ ?_)⟩
  · obtain ⟨u, hstore, hin, hout⟩ :=
      exists_storeBytes_eq_ok (a := s.i.toNat) (vs := bcdDigits (s.reg x)) hwf (by rw [length_bcdDigits]; omega)
    obtain ⟨hhundreds, htens, hones⟩ := toNat_getElem_bcdDigits (s.reg x)
    refine ⟨u, exec_ldB_of_storeBytes hstore, ?_, ?_, ?_, fun a ha => ?_, sameBut_storeBytes hstore⟩
    · exact (congrArg BitVec.toNat (hin 0 (by simp))).trans hhundreds
    · exact (congrArg BitVec.toNat (hin 1 (by simp))).trans htens
    · exact (congrArg BitVec.toNat (hin 2 (by simp))).trans hones
    · exact hout a (by rw [length_bcdDigits]; omega)
  · exact Nat.succ_pos 2
  · rw [length_bcdDigits, State.dataBase]; omega

/-- Settles O33: the registers are one store from `I`, which fits or takes its fault before `I` is advanced. -/
theorem registersAreStored : Obligations.RegistersAreStored := by
  rintro x s ⟨hwf, -, -⟩
  refine ⟨fun hfits => ?_, fun hpast => completes_tookFault_map (storeBytes_past ?_ ?_)⟩
  · obtain ⟨u, hstore, hin, hout⟩ :=
      exists_storeBytes_eq_ok (a := s.i.toNat) (vs := s.regsUpTo x) hwf (by rw [length_regsUpTo]; omega)
    have hi : u.i = s.i := by
      obtain ⟨-, -, hi, -⟩ := sameBut_storeBytes hstore
      exact hi (by decide)
    refine ⟨_, exec_stRegs_of_storeBytes hstore, fun k hk => ?_, fun a ha => ?_, ?_, ?_⟩
    · rw [State.byte_addToI, hin k.toNat (by rw [length_regsUpTo]; omega), getElem_regsUpTo, BitVec.ofNat_toNat,
        BitVec.setWidth_eq]
    · exact hout a (by rw [length_regsUpTo]; omega)
    · rw [toNat_addToI (by rw [hi]; omega), hi, Nat.add_assoc]
    · exact ((sameBut_storeBytes hstore).append (sameBut_addToI u _)).mono (by decide)
  · exact length_regsUpTo s x ▸ Nat.succ_pos _
  · rw [length_regsUpTo, State.dataBase]; omega

/-- Settles O34: the registers take the bytes of one load from `I`, which fits or takes its fault before anything is written. -/
theorem registersAreLoaded : Obligations.RegistersAreLoaded := by
  refine fun x s => ⟨fun hfits => ?_, fun hpast => completes_tookFault_map (loadBytes_past ?_ ?_)⟩
  · obtain ⟨bs, hload, hlen, hbyte⟩ := exists_loadBytes_eq_ok (s := s) (a := s.i.toNat) (n := x.toNat + 1) (by omega)
    have hx : x.toNat < 16 := x.isLt
    have hreg := reg_setRegsFrom s 0 bs (by omega)
    have hi : (s.setRegsFrom 0 bs).i = s.i := by
      obtain ⟨-, -, hi, -⟩ := sameBut_setRegsFrom s 0 bs
      exact hi (by decide)
    refine ⟨_, exec_ldRegs_of_loadBytes hload, fun k hk => ?_, fun k hk => ?_, ?_, ?_⟩
    · rw [State.reg_addToI, hreg, dif_pos (by omega), hbyte, Nat.sub_zero]
    · rw [State.reg_addToI, hreg, dif_neg (by omega)]
    · rw [toNat_addToI (by rw [hi]; omega), hi, Nat.add_assoc]
    · exact ((sameBut_setRegsFrom s 0 bs).append (sameBut_addToI _ _)).mono (by decide)
  · exact Nat.succ_pos _
  · rw [State.dataBase]; omega

end Sys2Proof.Machine
end

section
/-! The cleared display (spec/43_display.md R190, R191): what `CLS` leaves in every cell. -/

namespace Sys2Proof.Machine

/-- No bound on the coordinates is needed: an index past the last of the 2048 cells reads `false` too. -/
@[simp] theorem State.cell_setFb_clearedFb (s : State) (cx cy : Nat) : (s.setFb clearedFb).cell cx cy = false := by
  have hcells : (s.setFb clearedFb).fb.toList = List.replicate 2048 false := Vector.toList_replicate
  rw [State.cell, hcells, List.getD_eq_getElem?_getD, List.getElem?_getD_replicate_default_eq]

/-- Settles O37: the frame buffer alone is written, with the cleared one. -/
theorem clearTurnsEveryCellOff : Obligations.ClearTurnsEveryCellOff :=
  fun s => ⟨_, rfl, State.cell_setFb_clearedFb s, sameBut_setFb s clearedFb⟩

end Sys2Proof.Machine
end

section
/-! Keys and timers (spec/44_keys_timers.md R215, R216): the copies between a register and the delay timer. -/

namespace Sys2Proof.Machine

/-- Settles O47: `LD Vx, DT` is one register write, and `LD DT, Vx` writes the delay timer alone. -/
theorem delayTimerReadAndWrite : Obligations.DelayTimerReadAndWrite := by
  refine ⟨fun x s => completes_of_eq_setReg rfl ?_, fun x s => ⟨_, rfl, ?_, ?_⟩⟩
  · exact State.reg_setReg_same s x s.dt
  · exact State.setDt_dt s (s.reg x)
  · exact sameBut_setDt s (s.reg x)

end Sys2Proof.Machine
end

section
/-! The beep output (spec/60_exceptions.md R251, R252): the tick's request says that `ST` goes from 1 to 0, and no other
action has a beep among its outputs. -/

namespace Sys2Proof.Machine

/-- The tick's beep condition looks at `ST` before it alone; a sound timer of 1 always ends at 0 (R251). -/
theorem beeps_iff_tickTimers (s : State) : s.beeps = true ↔ s.st.toNat = 1 ∧ s.tickTimers.st.toNat = 0 := by
  rw [beeps_iff, st_tickTimers, toNat_countDown]
  omega

/-- A beep among the outputs of an action means that the action is a tick (R252). -/
theorem count_beep_eq_zero_of_ne_tick {a : Action} {s t : State} {out : List Output} (h : act a s = some (t, out))
    (ha : a ≠ .tick) : out.count .beep = 0 := by
  obtain ⟨-, -, rfl⟩ | ⟨rfl, -⟩ | ⟨_, -, -, rfl⟩ | ⟨_, -, -, rfl⟩ | ⟨-, -, rfl⟩ | ⟨_, _, -, -, rfl⟩ := act_cases h
  case inr.inl => exact absurd rfl ha
  all_goals exact List.count_eq_zero.mpr (by simp)

/-- A tick that happens counts down both timers, and its outputs hold one beep exactly when `State.beeps` holds. -/
theorem act_tick {s t : State} {out : List Output} (h : act .tick s = some (t, out)) :
    t = s.tickTimers ∧ out.count .beep = if s.beeps then 1 else 0 := by
  obtain ⟨h, -⟩ | ⟨-, -, rfl, rfl⟩ | ⟨_, h, -⟩ | ⟨_, h, -⟩ | ⟨h, -⟩ | ⟨_, _, h, -⟩ := act_cases h
  case inr.inl => exact ⟨rfl, by split <;> rfl⟩
  all_goals cases h

/-- Settles O50: only a tick can beep, and its beep condition is that `ST` goes from 1 to 0. -/
theorem beepExactlyWhenTheSoundTimerEnds : Obligations.BeepExactlyWhenTheSoundTimerEnds := by
  intro a s t out h
  by_cases ha : a = .tick
  · subst ha
    obtain ⟨rfl, hcount⟩ := act_tick h
    simp only [hcount, beeps_iff_tickTimers, true_and]
  · rw [count_beep_eq_zero_of_ne_tick h ha, if_neg fun hc => ha hc.1]

end Sys2Proof.Machine
end

section
/-! Reset (spec/70_reset_and_hazards.md R281, R283): the font is loaded into canonical memory, so every byte of an image that
fits is read back from where the second load puts it. -/

namespace Sys2Proof.Machine

/-- The font fits at the bottom of memory, so memory with the font alone is canonical. -/
theorem wf_writeList_font (font : Vector Byte 80) : (Memory.writeList [] 0 font.toList).wf = true :=
  Memory.wf_writeList rfl (by rw [Vector.length_toList]; decide)

/-- An image of at most 3584 bytes ends at the top of memory or below it (R6). -/
theorem romBase_add_length_le_memSize {rom : List Byte} (h : rom.length ≤ Config.romMax) :
    Config.romBase + rom.length ≤ Config.memSize :=
  Nat.add_le_add_left h Config.romBase

/-- Byte `k` of an image that fits is at `0x200 + k` (R283). -/
theorem read_resetMemory_romBase_add {rom : List Byte} {k : Nat} (font : Vector Byte 80) (h : rom.length ≤ Config.romMax)
    (hk : k < rom.length) : (resetMemory font rom).read (Config.romBase + k) = rom[k] :=
  Memory.read_writeList_at (wf_writeList_font font) (romBase_add_length_le_memSize h) hk

/-- An image that fits is accepted (R283). -/
theorem resetWith_of_length_le {rom : List Byte} (font : Vector Byte 80) (s : State) (h : rom.length ≤ Config.romMax) :
    resetWith font rom s = some { State.reset with mem := resetMemory font rom, draws := s.draws } :=
  if_pos h

/-- Settles O54: the image is accepted, `PC` is that of `State.reset`, and each byte is read back from the last load. -/
theorem resetPlacesTheRomImage : Obligations.ResetPlacesTheRomImage :=
  fun font _ s h => ⟨_, resetWith_of_length_le font s h, rfl, fun _ hk => read_resetMemory_romBase_add font h hk⟩

end Sys2Proof.Machine
end

section
/-! Decoding and encoding are inverse to each other (spec/30_encoding.md R92 to R95): the fields of each format's word, a word
put together again from its fields, and the rows of the opcode map read as conditions on the fields. -/

namespace Sys2Proof

/-! The fields of an encoding, one lemma each. -/

@[simp] theorem fieldFam_formatA (f : Nibble) (nnn : Addr) : fieldFam (formatA f nnn) = f := (fields_formatA f nnn).1

@[simp] theorem fieldNNN_formatA (f : Nibble) (nnn : Addr) : fieldNNN (formatA f nnn) = nnn := (fields_formatA f nnn).2

@[simp] theorem fieldFam_formatXI (f x : Nibble) (nn : Byte) : fieldFam (formatXI f x nn) = f := (fields_formatXI f x nn).1

@[simp] theorem fieldX_formatXI (f x : Nibble) (nn : Byte) : fieldX (formatXI f x nn) = x := by
  obtain ⟨-, h, -⟩ := fields_formatXI f x nn
  exact h

@[simp] theorem fieldNN_formatXI (f x : Nibble) (nn : Byte) : fieldNN (formatXI f x nn) = nn := by
  obtain ⟨-, -, h⟩ := fields_formatXI f x nn
  exact h

@[simp] theorem fieldFam_formatXY (f x y n : Nibble) : fieldFam (formatXY f x y n) = f := (fields_formatXY f x y n).1

@[simp] theorem fieldX_formatXY (f x y n : Nibble) : fieldX (formatXY f x y n) = x := by
  obtain ⟨-, h, -⟩ := fields_formatXY f x y n
  exact h

@[simp] theorem fieldY_formatXY (f x y n : Nibble) : fieldY (formatXY f x y n) = y := by
  obtain ⟨-, -, h, -⟩ := fields_formatXY f x y n
  exact h

@[simp] theorem fieldN_formatXY (f x y n : Nibble) : fieldN (formatXY f x y n) = n := by
  obtain ⟨-, -, -, h⟩ := fields_formatXY f x y n
  exact h

/-- Decoding an encoded instruction: the fixed fields of its format select its row, and the others are its operands. -/
theorem decode_encode (i : Instr) : decode (encode i) = .ok i := by
  cases i with
  | cls | ret => rfl
  | jp | call | ldI | jpV0 => simp [encode, decode]
  | seImm | sneImm | ldImm | addImm | rnd => simp [encode, decode]
  | seReg | sneReg | drw => simp [encode, decode]
  | ldReg | or | and | xor | addReg | sub | shr | subn | shl => simp [encode, decode, decodeFam8]
  | skp | sknp => simp [encode, decode, decodeFamE]
  | ldVxDt | ldVxK | ldDtVx | ldStVx | addI | ldF | ldB | stRegs | ldRegs => simp [encode, decode, decodeFamF]

/-- Settles O1: the two bytes make the opcode again, and the decoder finds the instruction by the fields of its format. -/
theorem decodeOfEncodeIsTheInstruction : Obligations.DecodeOfEncodeIsTheInstruction := by
  intro i rest
  simp only [encodeBytes, List.cons_append, List.nil_append, decodeBytes, wordOfBytes_highByte_lowByte, decode_encode]

/-! A word from its fields. -/

theorem formatA_fields (op : Word) : formatA (fieldFam op) (fieldNNN op) = op := by
  apply BitVec.eq_of_toNat_eq
  rw [toNat_formatA, fieldFam_toNat, fieldNNN_toNat]
  omega

theorem formatXI_fields (op : Word) : formatXI (fieldFam op) (fieldX op) (fieldNN op) = op := by
  apply BitVec.eq_of_toNat_eq
  rw [toNat_formatXI, fieldFam_toNat, fieldX_toNat, fieldNN_toNat]
  omega

theorem formatXY_fields (op : Word) : formatXY (fieldFam op) (fieldX op) (fieldY op) (fieldN op) = op := by
  apply BitVec.eq_of_toNat_eq
  rw [toNat_formatXY, fieldFam_toNat, fieldX_toNat, fieldY_toNat, fieldN_toNat]
  omega

/-- A format A word whose family is known. -/
theorem formatA_of_fields {op : Word} {f : Nibble} (hf : (fieldFam op).toNat = f.toNat) : formatA f (fieldNNN op) = op := by
  rw [← BitVec.eq_of_toNat_eq hf, formatA_fields]

/-- A format XI or XK word whose family and low byte are known. -/
theorem formatXI_of_fields {op : Word} {f : Nibble} {nn : Byte} (hf : (fieldFam op).toNat = f.toNat) (hnn : fieldNN op = nn) :
    formatXI f (fieldX op) nn = op := by
  rw [← BitVec.eq_of_toNat_eq hf, ← hnn, formatXI_fields]

/-- A format XY or XYN word whose family and low nibble are known. -/
theorem formatXY_of_fields {op : Word} {f n : Nibble} (hf : (fieldFam op).toNat = f.toNat)
    (hn : (fieldN op).toNat = n.toNat) : formatXY f (fieldX op) (fieldY op) n = op := by
  rw [← BitVec.eq_of_toNat_eq hf, ← BitVec.eq_of_toNat_eq hn, formatXY_fields]

/-! What a family decodes to encodes to the opcode. -/

theorem encode_of_decodeFam0 {op : Word} {i : Instr} (h : decodeFam0 op = .ok i) : encode i = op := by
  unfold decodeFam0 at h
  split_ifs at h with hcls hret <;> cases h
  · exact hcls.symm
  · exact hret.symm

theorem encode_of_decodeFam8 {op : Word} {i : Instr} (hf : (fieldFam op).toNat = 0x8) (h : decodeFam8 op = .ok i) :
    encode i = op := by
  unfold decodeFam8 at h
  dsimp only at h
  split at h <;> cases h
  all_goals exact formatXY_of_fields hf ‹(fieldN op).toNat = _›

theorem encode_of_decodeFamE {op : Word} {i : Instr} (hf : (fieldFam op).toNat = 0xE) (h : decodeFamE op = .ok i) :
    encode i = op := by
  unfold decodeFamE at h
  dsimp only at h
  split_ifs at h <;> cases h
  all_goals exact formatXI_of_fields hf ‹fieldNN op = _›

theorem encode_of_decodeFamF {op : Word} {i : Instr} (hf : (fieldFam op).toNat = 0xF) (h : decodeFamF op = .ok i) :
    encode i = op := by
  unfold decodeFamF at h
  dsimp only at h
  split_ifs at h <;> cases h
  all_goals exact formatXI_of_fields hf ‹fieldNN op = _›

/-- Settles O2: in each family the word is put together again from the family, the operands and the fixed bits tested. -/
theorem encodeOfDecodeIsTheOpcode : Obligations.EncodeOfDecodeIsTheOpcode := by
  intro op i h
  unfold decode at h
  dsimp only at h
  split at h
  case h_1 => exact encode_of_decodeFam0 h
  case h_6 hf | h_10 hf => -- families 5 and 9, matched on the low nibble
    split_ifs at h with hn
    cases h
    exact formatXY_of_fields hf (congrArg BitVec.toNat hn)
  case h_9 hf => exact encode_of_decodeFam8 hf h
  case h_15 hf => exact encode_of_decodeFamE hf h
  case h_16 => -- the last pattern is family F alone
    have hf : (fieldFam op).toNat = 0xF := by
      have hlt : (fieldFam op).toNat < 16 := (fieldFam op).isLt
      simp only [imp_false] at *
      omega
    exact encode_of_decodeFamF hf h
  case h_2 hf | h_3 hf | h_11 hf | h_12 hf => cases h; exact formatA_of_fields hf
  case h_14 hf => cases h; exact formatXY_of_fields hf rfl
  all_goals
    cases h
    exact formatXI_of_fields ‹(fieldFam op).toNat = _› rfl

/-! The rows of the opcode map. -/

/-- The row law of every instruction. -/
theorem rowStatement : ∀ i : Instr, Laws.Row.Statement i
  | .cls => Laws.Row.cls
  | .ret => Laws.Row.ret
  | .jp nnn => Laws.Row.jp nnn
  | .call nnn => Laws.Row.call nnn
  | .seImm x nn => Laws.Row.seImm x nn
  | .sneImm x nn => Laws.Row.sneImm x nn
  | .seReg x y => Laws.Row.seReg x y
  | .ldImm x nn => Laws.Row.ldImm x nn
  | .addImm x nn => Laws.Row.addImm x nn
  | .ldReg x y => Laws.Row.ldReg x y
  | .or x y => Laws.Row.or x y
  | .and x y => Laws.Row.and x y
  | .xor x y => Laws.Row.xor x y
  | .addReg x y => Laws.Row.addReg x y
  | .sub x y => Laws.Row.sub x y
  | .shr x y => Laws.Row.shr x y
  | .subn x y => Laws.Row.subn x y
  | .shl x y => Laws.Row.shl x y
  | .sneReg x y => Laws.Row.sneReg x y
  | .ldI nnn => Laws.Row.ldI nnn
  | .jpV0 nnn => Laws.Row.jpV0 nnn
  | .rnd x nn => Laws.Row.rnd x nn
  | .drw x y n => Laws.Row.drw x y n
  | .skp x => Laws.Row.skp x
  | .sknp x => Laws.Row.sknp x
  | .ldVxDt x => Laws.Row.ldVxDt x
  | .ldVxK x => Laws.Row.ldVxK x
  | .ldDtVx x => Laws.Row.ldDtVx x
  | .ldStVx x => Laws.Row.ldStVx x
  | .addI x => Laws.Row.addI x
  | .ldF x => Laws.Row.ldF x
  | .ldB x => Laws.Row.ldB x
  | .stRegs x => Laws.Row.stRegs x
  | .ldRegs x => Laws.Row.ldRegs x

/-- What a row that selects an opcode says of the fields its mask fixes (R94). -/
theorem fields_of_selects {r : Row} {op : Word} (h : r.selects op = true) :
    fieldFam op &&& fieldFam r.mask = fieldFam r.pattern ∧ fieldN op &&& fieldN r.mask = fieldN r.pattern ∧
      fieldNN op &&& fieldNN r.mask = fieldNN r.pattern := by
  rw [← eq_of_beq h]
  exact ⟨BitVec.extractLsb'_and.symm, BitVec.extractLsb'_and.symm, BitVec.extractLsb'_and.symm⟩

/-- A row whose mask fixes the family gives the opcode's family. -/
theorem fieldFam_of_selects {o : Op} {op : Word} (h : o.row.selects op = true) :
    fieldFam op = fieldFam o.row.pattern := by
  have hmask : fieldFam o.row.mask = BitVec.allOnes 4 := by cases o <;> rfl
  obtain ⟨hfam, -⟩ := fields_of_selects h
  rwa [hmask, BitVec.and_allOnes] at hfam

/-- A row whose mask fixes the low nibble gives it. -/
theorem fieldN_of_selects {r : Row} {op : Word} (h : r.selects op = true) (hmask : fieldN r.mask = BitVec.allOnes 4) :
    fieldN op = fieldN r.pattern := by
  obtain ⟨-, hn, -⟩ := fields_of_selects h
  rwa [hmask, BitVec.and_allOnes] at hn

/-- A row whose mask fixes the low byte gives it. -/
theorem fieldNN_of_selects {r : Row} {op : Word} (h : r.selects op = true) (hmask : fieldNN r.mask = BitVec.allOnes 8) :
    fieldNN op = fieldNN r.pattern := by
  obtain ⟨-, -, hnn⟩ := fields_of_selects h
  rwa [hmask, BitVec.and_allOnes] at hnn

/-- The instruction of a row with its operands taken from the fields of a word (R92). -/
def instrOfRow (op : Word) : Op → Instr
  | .cls => .cls
  | .ret => .ret
  | .jp => .jp (fieldNNN op)
  | .call => .call (fieldNNN op)
  | .seImm => .seImm (fieldX op) (fieldNN op)
  | .sneImm => .sneImm (fieldX op) (fieldNN op)
  | .seReg => .seReg (fieldX op) (fieldY op)
  | .ldImm => .ldImm (fieldX op) (fieldNN op)
  | .addImm => .addImm (fieldX op) (fieldNN op)
  | .ldReg => .ldReg (fieldX op) (fieldY op)
  | .or => .or (fieldX op) (fieldY op)
  | .and => .and (fieldX op) (fieldY op)
  | .xor => .xor (fieldX op) (fieldY op)
  | .addReg => .addReg (fieldX op) (fieldY op)
  | .sub => .sub (fieldX op) (fieldY op)
  | .shr => .shr (fieldX op) (fieldY op)
  | .subn => .subn (fieldX op) (fieldY op)
  | .shl => .shl (fieldX op) (fieldY op)
  | .sneReg => .sneReg (fieldX op) (fieldY op)
  | .ldI => .ldI (fieldNNN op)
  | .jpV0 => .jpV0 (fieldNNN op)
  | .rnd => .rnd (fieldX op) (fieldNN op)
  | .drw => .drw (fieldX op) (fieldY op) (fieldN op)
  | .skp => .skp (fieldX op)
  | .sknp => .sknp (fieldX op)
  | .ldVxDt => .ldVxDt (fieldX op)
  | .ldVxK => .ldVxK (fieldX op)
  | .ldDtVx => .ldDtVx (fieldX op)
  | .ldStVx => .ldStVx (fieldX op)
  | .addI => .addI (fieldX op)
  | .ldF => .ldF (fieldX op)
  | .ldB => .ldB (fieldX op)
  | .stRegs => .stRegs (fieldX op)
  | .ldRegs => .ldRegs (fieldX op)

theorem op_instrOfRow (op : Word) (o : Op) : (instrOfRow op o).op = o := by cases o <;> rfl

/-- Of a word that the row selects, the row's instruction is the one whose encoding the word is. -/
theorem encode_instrOfRow {op : Word} {o : Op} (h : o.row.selects op = true) : encode (instrOfRow op o) = op := by
  have hfam := congrArg BitVec.toNat (fieldFam_of_selects h)
  cases o
  case cls | ret => exact ((BitVec.and_allOnes (x := op)).symm.trans (eq_of_beq h)).symm
  case jp | call | ldI | jpV0 => exact formatA_of_fields hfam
  case seImm | sneImm | ldImm | addImm | rnd => exact formatXI_of_fields hfam rfl
  case drw => exact formatXY_of_fields hfam rfl
  case seReg | ldReg | or | and | xor | addReg | sub | shr | subn | shl | sneReg =>
    exact formatXY_of_fields hfam (congrArg BitVec.toNat (fieldN_of_selects h rfl))
  case skp | sknp | ldVxDt | ldVxK | ldDtVx | ldStVx | addI | ldF | ldB | stRegs | ldRegs =>
    exact formatXI_of_fields hfam (fieldNN_of_selects h rfl)

/-- An opcode that a row selects decodes to an instruction of that row. -/
theorem exists_decode_of_selects {op : Word} {o : Op} (h : o.row.selects op = true) : ∃ i, decode op = .ok i ∧ i.op = o :=
  ⟨instrOfRow op o, by rw [← decode_encode, encode_instrOfRow h], op_instrOfRow op o⟩

/-- Settles O3: a selected opcode decodes to its row, what decodes is the encoding of an instruction and so selected by its
row, and a decoder's one answer leaves room for one row. -/
theorem decodeFollowsTheOpcodeMap : Obligations.DecodeFollowsTheOpcodeMap := by
  refine ⟨fun op o => ⟨?_, exists_decode_of_selects⟩, fun op o o' h h' => ?_⟩
  · rintro ⟨i, hd, rfl⟩
    rw [← encodeOfDecodeIsTheOpcode op i hd]
    exact (rowStatement i).2
  · obtain ⟨i, hd, rfl⟩ := exists_decode_of_selects h
    obtain ⟨i', hd', rfl⟩ := exists_decode_of_selects h'
    rw [Except.ok.inj (hd.symm.trans hd')]

/-- Settles O5: the decoder computes on the sixteen words. -/
theorem sampleWordsDecode : Obligations.SampleWordsDecode :=
  ⟨rfl, rfl, rfl, rfl, rfl, rfl, rfl, rfl, rfl, rfl, rfl, rfl, rfl, rfl, rfl, rfl⟩

/-! Assembly (R100). -/

/-- An instruction as its printed line tells it: with 0 for the `Y` of the shifts, which is not printed. -/
def Instr.asPrinted : Instr → Instr
  | .shr x _ => .shr x 0
  | .shl x _ => .shl x 0
  | i => i

/-- A printed line assembles, and every operand it prints is read back into its field. -/
theorem assemble_line (i : Instr) : assemble i.line = some i.asPrinted := by
  have hwf : i.line.wellFormed = true := (rowStatement i).1
  rw [assemble, if_pos hwf]
  cases i <;> simp [Instr.line, AsmLine.arg, Instr.asPrinted]

/-- Settles O6: printing loses no operand but the unused `Y` of the shifts, and `assemble` checks the line first. -/
theorem assemblyRoundTrips : Obligations.AssemblyRoundTrips := by
  refine ⟨fun i hshr hshl => ?_, fun x y => ⟨assemble_line (.shr x y), assemble_line (.shl x y)⟩, fun l hl => ?_⟩
  · rw [assemble_line]
    cases i
    case shr x y => exact absurd rfl (hshr x y)
    case shl x y => exact absurd rfl (hshl x y)
    all_goals rfl
  · rw [assemble, if_neg (by simp [hl])]

end Sys2Proof
end

section
/-! Faults (spec/60_exceptions.md R231 to R238): each instruction answers as its entry of the fault table says, so it always
completes, halts exactly there, and leaves everything else when it does; the step adds the faults of fetch and decode. -/

namespace Sys2Proof.Machine

/-! One piece of a frame. -/

theorem SameBut.byte_eq {cs : List Piece} {s t : State} (h : SameBut cs s t) (hc : .mem ∉ cs) (a : Nat) :
    t.byte a = s.byte a := by
  obtain ⟨h, -⟩ := h
  exact h hc a

theorem SameBut.reg_eq {cs : List Piece} {s t : State} (h : SameBut cs s t) (hc : .v ∉ cs) (y : Nibble) :
    t.reg y = s.reg y := by
  obtain ⟨-, h, -⟩ := h
  exact h hc y

theorem SameBut.i_eq {cs : List Piece} {s t : State} (h : SameBut cs s t) (hc : .i ∉ cs) : t.i = s.i := by
  obtain ⟨-, -, h, -⟩ := h
  exact h hc

theorem SameBut.pc_eq {cs : List Piece} {s t : State} (h : SameBut cs s t) (hc : .pc ∉ cs) : t.pc = s.pc := by
  obtain ⟨-, -, -, h, -⟩ := h
  exact h hc

theorem SameBut.stack_eq {cs : List Piece} {s t : State} (h : SameBut cs s t) (hc : .stack ∉ cs) : t.stack = s.stack := by
  obtain ⟨-, -, -, -, h, -⟩ := h
  exact h hc

theorem SameBut.sp_eq {cs : List Piece} {s t : State} (h : SameBut cs s t) (hc : .sp ∉ cs) : t.sp = s.sp := by
  obtain ⟨-, -, -, -, -, h, -⟩ := h
  exact h hc

theorem SameBut.dt_eq {cs : List Piece} {s t : State} (h : SameBut cs s t) (hc : .dt ∉ cs) : t.dt = s.dt := by
  obtain ⟨-, -, -, -, -, -, h, -⟩ := h
  exact h hc

theorem SameBut.st_eq {cs : List Piece} {s t : State} (h : SameBut cs s t) (hc : .st ∉ cs) : t.st = s.st := by
  obtain ⟨-, -, -, -, -, -, -, h, -⟩ := h
  exact h hc

theorem SameBut.fb_eq {cs : List Piece} {s t : State} (h : SameBut cs s t) (hc : .fb ∉ cs) : t.fb = s.fb := by
  obtain ⟨-, -, -, -, -, -, -, -, h, -⟩ := h
  exact h hc

theorem SameBut.key_eq {cs : List Piece} {s t : State} (h : SameBut cs s t) (hc : .keys ∉ cs) (k : Nibble) :
    t.key k = s.key k := by
  obtain ⟨-, -, -, -, -, -, -, -, -, h, -⟩ := h
  exact h hc k

theorem SameBut.halt_eq {cs : List Piece} {s t : State} (h : SameBut cs s t) (hc : .halt ∉ cs) : t.halt = s.halt := by
  obtain ⟨-, -, -, -, -, -, -, -, -, -, h, -⟩ := h
  exact h hc

theorem SameBut.draws_eq {cs : List Piece} {s t : State} (h : SameBut cs s t) (hc : .draws ∉ cs) : t.draws = s.draws := by
  obtain ⟨-, -, -, -, -, -, -, -, -, -, -, h⟩ := h
  exact h hc

/-! The answer of every instruction by its entry of the fault table. -/

/-- The answer an entry of the fault table stands for: with no fault a next state that keeps `HALT`, with a fault exactly the
state that has taken it (R231, R236). -/
def AnswersAsListed (s : State) (o : Answer) : Option FaultCause → Prop
  | none => Completes o fun t => t.halt = s.halt
  | some c => o = .next (s.raise c s.opcodeAt)

/-- A conditional entry, from the two sides of its condition. -/
theorem answersAsListed_ite {s : State} {p : Prop} [Decidable p] {c : FaultCause} {r : Except FaultCause State}
    (hfault : p → r = .error c) (hok : ¬ p → ∃ t, r = .ok t ∧ t.halt = s.halt) :
    AnswersAsListed s (complete s r) (if p then some c else none) := by
  split
  case isTrue hp => exact congrArg (complete s) (hfault hp)
  case isFalse hp =>
    obtain ⟨t, hr, ht⟩ := hok hp
    exact ⟨t, congrArg (complete s) hr, ht⟩

/-- The same for an answer computed from the result of an operation. -/
theorem answersAsListed_ite_map {α : Type} {s : State} {p : Prop} [Decidable p] {c : FaultCause} {r : Except FaultCause α}
    {f : α → State} (hfault : p → r = .error c) (hok : ¬ p → ∃ a, r = .ok a ∧ (f a).halt = s.halt) :
    AnswersAsListed s (complete s (r.map f)) (if p then some c else none) := by
  refine answersAsListed_ite (fun hp => congrArg (Except.map f) (hfault hp)) fun hp => ?_
  obtain ⟨a, hr, ha⟩ := hok hp
  exact ⟨f a, congrArg (Except.map f) hr, ha⟩

theorem answersAsListed_execCall (nnn : Addr) (s : State) :
    AnswersAsListed s (execCall nnn s) (expectedFault (.call nnn) s) := by
  rcases push_cases s s.pc with ⟨hroom, e⟩ | ⟨hfull, e⟩
  · exact answersAsListed_ite_map (fun hp => by omega) fun _ => ⟨_, e, rfl⟩
  · exact answersAsListed_ite_map (fun _ => e) fun hp => absurd hfull hp

theorem answersAsListed_execRet (s : State) : AnswersAsListed s (execRet s) (expectedFault .ret s) := by
  rcases pop_cases s with ⟨hused, e⟩ | ⟨hempty, e⟩
  · exact answersAsListed_ite_map (fun hp => by omega) fun _ => ⟨_, e, rfl⟩
  · exact answersAsListed_ite_map (fun _ => e) fun hp => absurd hempty hp

theorem answersAsListed_execDrw (x y n : Nibble) (s : State) :
    AnswersAsListed s (execDrw x y n s) (expectedFault (.drw x y n) s) :=
  answersAsListed_ite_map (fun hp => loadBytes_past (by omega) (by rw [State.dataBase]; omega))
    fun hp => ⟨_, loadBytes_fits (by rw [State.dataBase]; omega), rfl⟩

theorem answersAsListed_execLdB (x : Nibble) (s : State) : AnswersAsListed s (execLdB x s) (expectedFault (.ldB x) s) :=
  answersAsListed_ite (fun hp => storeBytes_past (by simp) (by rw [State.dataBase, length_bcdDigits]; omega))
    fun hp => ⟨_, storeBytes_fits (by rw [State.dataBase, length_bcdDigits]; omega), rfl⟩

theorem answersAsListed_execStRegs (x : Nibble) (s : State) :
    AnswersAsListed s (execStRegs x s) (expectedFault (.stRegs x) s) :=
  answersAsListed_ite_map (fun hp => storeBytes_past (by simp) (by rw [State.dataBase, length_regsUpTo]; omega))
    fun hp => ⟨_, storeBytes_fits (by rw [State.dataBase, length_regsUpTo]; omega), rfl⟩

theorem answersAsListed_execLdRegs (x : Nibble) (s : State) :
    AnswersAsListed s (execLdRegs x s) (expectedFault (.ldRegs x) s) :=
  answersAsListed_ite_map (fun hp => loadBytes_past (by omega) (by rw [State.dataBase]; omega)) fun hp =>
    ⟨_, loadBytes_fits (by rw [State.dataBase]; omega), (sameBut_setRegsFrom s 0 _).halt_eq (by decide)⟩

theorem answersAsListed_execSkp (x : Nibble) (s : State) : AnswersAsListed s (execSkp x s) (expectedFault (.skp x) s) :=
  answersAsListed_ite_map keyNumbered_none fun hp =>
    ⟨_, keyNumbered_key (by omega), (sameBut_skipIf s _).halt_eq (by decide)⟩

theorem answersAsListed_execSknp (x : Nibble) (s : State) : AnswersAsListed s (execSknp x s) (expectedFault (.sknp x) s) :=
  answersAsListed_ite_map keyNumbered_none fun hp =>
    ⟨_, keyNumbered_key (by omega), (sameBut_skipIf s _).halt_eq (by decide)⟩

/-- `LD Vx, K` always completes: it takes a key or puts `PC` back (R214). -/
theorem exists_execLdVxK_eq_next (x : Nibble) (s : State) : ∃ t, execLdVxK x s = .next t := by
  unfold execLdVxK
  split <;> exact ⟨_, rfl⟩

/-- Every instruction answers as its entry of the fault table says. -/
theorem exec_answersAsListed (i : Instr) (s : State) : AnswersAsListed s (exec i s) (expectedFault i s) := by
  cases i with
  | call nnn => exact answersAsListed_execCall nnn s
  | ret => exact answersAsListed_execRet s
  | drw x y n => exact answersAsListed_execDrw x y n s
  | ldB x => exact answersAsListed_execLdB x s
  | stRegs x => exact answersAsListed_execStRegs x s
  | ldRegs x => exact answersAsListed_execLdRegs x s
  | skp x => exact answersAsListed_execSkp x s
  | sknp x => exact answersAsListed_execSknp x s
  | ldVxK x =>
    obtain ⟨t, ht⟩ := exists_execLdVxK_eq_next x s
    exact ⟨t, ht, (sameBut_execLdVxK ht).halt_eq (by decide)⟩
  | seImm | sneImm | seReg | sneReg => exact ⟨_, rfl, (sameBut_skipIf s _).halt_eq (by decide)⟩
  | _ => exact ⟨_, rfl, rfl⟩

/-- An instruction with a fault in the table takes it, and nothing else. -/
theorem exec_eq_raise {i : Instr} {s : State} {c : FaultCause} (h : expectedFault i s = some c) :
    exec i s = .next (s.raise c s.opcodeAt) := by
  have hlisted := exec_answersAsListed i s
  rwa [h] at hlisted

/-- An instruction with no fault in the table completes with `HALT` kept. -/
theorem exec_completes_halt_eq {i : Instr} {s : State} (h : expectedFault i s = none) :
    Completes (exec i s) fun t => t.halt = s.halt := by
  have hlisted := exec_answersAsListed i s
  rwa [h] at hlisted

/-- What an instruction can answer: its fault taken, or a state with `HALT` kept. -/
theorem exec_halt_cases {i : Instr} {s t : State} (h : exec i s = .next t) :
    (expectedFault i s = none ∧ t.halt = s.halt) ∨
    ∃ c, expectedFault i s = some c ∧ t = s.raise c s.opcodeAt := by
  cases hf : expectedFault i s with
  | none => exact .inl ⟨rfl, (exec_completes_halt_eq hf).of_next h⟩
  | some c => exact .inr ⟨c, rfl, Host.Outcome.next.inj (h.symm.trans (exec_eq_raise hf))⟩

/-- Every instruction has a next state. -/
theorem exists_exec_eq_next (i : Instr) (s : State) : ∃ t, exec i s = .next t := by
  cases hf : expectedFault i s with
  | none =>
    obtain ⟨t, ht, -⟩ := exec_completes_halt_eq hf
    exact ⟨t, ht⟩
  | some c => exact ⟨_, exec_eq_raise hf⟩

/-! The statements about faults. -/

/-- Settles O15: from a running state the fault taken is the table's, and with no fault `HALT` is kept. -/
theorem instructionsFaultExactlyAsListed : Obligations.InstructionsFaultExactlyAsListed := by
  intro i s t hrun h
  rcases exec_halt_cases h with ⟨hf, ht⟩ | ⟨c, hf, rfl⟩
  · rw [hf, ht, hrun, Option.map_none]
  · rw [hf, State.raise_halt, Option.map_some]

/-- The opcode's address is two below the advanced `PC`. -/
@[simp] theorem State.opcodeAt_advance (s : State) : s.advance.opcodeAt = s.pc := BitVec.add_sub_cancel s.pc 2

/-- Settles O16: the three places where a step can fault each take the fault with the address of the opcode. -/
theorem faultsArePrecise : Obligations.FaultsArePrecise := by
  refine ⟨fun i s c h => exec_eq_raise h, fun s t hrun h r hr => ?_⟩
  obtain ⟨-, ⟨-, rfl⟩ | ⟨-, rfl⟩ | ⟨-, i, -, hexec⟩⟩ := step_cases h
  · cases hr
    exact ⟨rfl, .inl rfl⟩
  · cases hr
    exact ⟨rfl, .inr rfl⟩
  · rcases exec_halt_cases hexec with ⟨-, ht⟩ | ⟨c, -, rfl⟩
    · rw [ht, State.advance_halt, hrun] at hr
      cases hr
    · cases hr
      exact ⟨s.opcodeAt_advance, .inr rfl⟩

/-- A running machine's step is the fault of its fetch or decode, or an instruction's answer. -/
theorem exists_step_eq_next {s : State} (hrun : s.halt = none) : ∃ t, step s = .next t := by
  rcases fetchDecode_cases s with ⟨-, hf⟩ | ⟨-, _, -, hf⟩ | ⟨-, i, -, hf⟩ <;> simp only [step, hrun, hf]
  · exact ⟨_, rfl⟩
  · exact ⟨_, rfl⟩
  · exact exists_exec_eq_next i s.advance

/-- Settles O9: `exec` answers a next state in both cases of the fault table, and the step adds only faults that are taken. -/
theorem runningMachineAlwaysSteps : Obligations.RunningMachineAlwaysSteps :=
  ⟨exists_exec_eq_next, fun _ hrun => exists_step_eq_next hrun⟩

end Sys2Proof.Machine
end

section
/-! The step of a running machine (spec/30_encoding.md R90, spec/20_memory.md R63): one lemma for a fetch that decodes and one
for a fetch past memory, and what each kind of opcode then makes of the step. -/

namespace Sys2Proof.Machine

/-- A fetch that decodes: the step is the instruction's execution with `PC` advanced. -/
theorem step_of_decode {s : State} {i : Instr} (hrun : s.halt = none) (hpc : s.pc.toNat ≤ 4094)
    (hd : decode s.opcodeAtPc = .ok i) : step s = exec i s.advance := by
  rcases fetchDecode_cases s with ⟨hpast, _⟩ | ⟨_, e, he, _⟩ | ⟨_, j, hj, hf⟩
  · omega
  · cases hd.symm.trans he
  · cases hd.symm.trans hj
    simp only [step, hrun, hf]

/-- A fetch with a byte past the end of memory: its fault is taken with `PC` kept (R63, R238). -/
theorem step_of_past {s : State} (hrun : s.halt = none) (hpc : 4095 ≤ s.pc.toNat) :
    step s = .next (s.raise .memoryOutOfBounds s.pc) := by
  rcases fetchDecode_cases s with ⟨_, hf⟩ | ⟨hin, _⟩ | ⟨hin, _⟩
  · simp only [step, hrun, hf]
  · omega
  · omega

/-- Settles O7: the advance is the update of `PC` alone. -/
theorem stepRunsTheDecodedInstruction : Obligations.StepRunsTheDecodedInstruction :=
  fun _ _ hrun hpc hd => step_of_decode hrun hpc hd

/-- Settles O8: the word at `PC` is the big-endian number of its two bytes, and the fetch checks both addresses. -/
theorem fetchIsBigEndianAndBounded : Obligations.FetchIsBigEndianAndBounded := by
  refine fun s hrun => ⟨fun hpc i hd => ?_, fun hpc => ?_⟩
  · rw [← wordOfBytes_eq] at hd
    exact step_of_decode hrun (by omega) hd
  · exact ⟨_, step_of_past hrun (by omega), tookFault_raise s _ _⟩

/-! Halted machines (R237, R239). -/

theorem step_of_halted {s : State} {r : FaultRecord} (h : s.halt = some r) : step s = .fault (.halted r) := by
  simp only [step, h]

theorem tick_of_halted {s : State} {r : FaultRecord} (h : s.halt = some r) : tick s = none := by
  simp only [tick, h]

theorem key_keyPress (s : State) (k j : Nibble) :
    (keyPress k s).key j = if j = k ∧ s.key k = .released then .pressed else s.key j := by
  unfold keyPress
  by_cases h : s.key k = .released <;> simp [h, State.key_setKey]

theorem key_keyRelease (s : State) (k j : Nibble) : (keyRelease k s).key j = if j = k then .released else s.key j :=
  State.key_setKey s k j .released

theorem sameBut_keyPress (k : Nibble) (s : State) : SameBut [.keys] s (keyPress k s) := by
  unfold keyPress
  split
  · exact sameBut_setKey s k .pressed
  · exact SameBut.refl _ s

theorem sameBut_keyRelease (k : Nibble) (s : State) : SameBut [.keys] s (keyRelease k s) := sameBut_setKey s k .released

/-- A reset that happens leaves the machine running. -/
theorem halt_of_resetWith {font : Vector Byte 80} {rom : List Byte} {s t : State} (h : resetWith font rom s = some t) :
    t.halt = none := by
  unfold resetWith at h
  split at h <;> cases h
  rfl

/-- Settles O11: steps and ticks need a running machine, and of the other actions only a reset writes `HALT`. -/
theorem haltedMachineOnlyReset : Obligations.HaltedMachineOnlyReset := by
  intro s r hr
  refine ⟨step_of_halted hr, tick_of_halted hr, fun k => ⟨?_, fun hk => ?_⟩, fun a t out h hreset => ?_,
    fun font rom t out h => ?_⟩
  · simp [key_keyRelease]
  · simp [key_keyPress, hk]
  · obtain ⟨-, hstep, -⟩ | ⟨-, hrun, -⟩ | ⟨k, -, rfl, -⟩ | ⟨k, -, rfl, -⟩ | ⟨-, rfl, -⟩ | ⟨font, rom, ha, -⟩ := act_cases h
    · cases (step_of_halted hr).symm.trans hstep
    · cases hr.symm.trans hrun
    · rw [(sameBut_keyPress k s).halt_eq (by decide), hr]
    · rw [(sameBut_keyRelease k s).halt_eq (by decide), hr]
    · exact hr
    · exact absurd ha (hreset font rom)
  · obtain ⟨u, hu, ht⟩ := Option.map_eq_some_iff.1 h
    cases ht
    exact halt_of_resetWith hu

/-! Opcodes placed in memory, and the jump to itself. -/

/-- The word at `PC` from its two bytes. -/
theorem opcodeAtPc_eq {s : State} {hi lo : Byte} (hhi : s.byte s.pc.toNat = hi) (hlo : s.byte (s.pc.toNat + 1) = lo) :
    s.opcodeAtPc = wordOfBytes hi lo := by
  rw [State.opcodeAtPc, hhi, hlo]

/-- All 16 bits of a word are its opcode's, so its bytes are the two halves. -/
theorem tableBytes_toNat (op : Word) : tableBytes 16 op.toNat = [highByte op, lowByte op] := by
  rw [tableBytes, Nat.mod_eq_of_lt op.isLt, BitVec.ofNat_toNat, BitVec.setWidth_eq]

/-- Placing a word where `PC` can fetch it changes memory alone and puts the word at `PC`. -/
theorem opcodeAtPc_withFetchWord {s : State} (op : Word) (hwf : s.mem.wf = true) (hpc : s.pc.toNat ≤ 4094) :
    (s.withFetchWord 16 op.toNat).opcodeAtPc = op ∧ SameBut [.mem] s (s.withFetchWord 16 op.toNat) := by
  obtain ⟨u, hstore, hin, -⟩ :=
    exists_storeBytes_eq_ok (s := s) (a := s.pc.toNat) (vs := [highByte op, lowByte op]) hwf (by simp; omega)
  have hplaced : s.withFetchWord 16 op.toNat = u := by
    simp only [State.withFetchWord, State.placeAtPc, tableBytes_toNat, hstore]
  have hframe := sameBut_storeBytes hstore
  have hupc : u.pc = s.pc := hframe.pc_eq (by decide)
  rw [hplaced]
  refine ⟨?_, hframe⟩
  rw [opcodeAtPc_eq (hupc ▸ hin 0 (by simp)) (hupc ▸ hin 1 (by simp))]
  exact wordOfBytes_highByte_lowByte op

/-- Settles O57: the placed word is the opcode fetched, and it decodes to the instruction it encodes. -/
theorem placedWordIsRunNext : Obligations.PlacedWordIsRunNext := by
  rintro i s ⟨hwf, -, -⟩ hrun hpc
  obtain ⟨hop, hframe⟩ := opcodeAtPc_withFetchWord (encode i) hwf hpc
  have hupc := hframe.pc_eq (by decide)
  rw [step_of_decode ((hframe.halt_eq (by decide)).trans hrun) (by rwa [hupc]) (by rw [hop, decode_encode]), ← hupc]
  rfl

/-- Settles O35: the two stored bytes are the word at `PC` after the store, so the next step decodes them. -/
theorem storedBytesAreFetched : Obligations.StoredBytesAreFetched := by
  intro x k s t i hinv hrun hfits hk hd hexec hpc
  obtain ⟨hstored, -, -, hframe⟩ := ((registersAreStored x s hinv).1 hfits).of_next hexec
  have htpc : t.pc = s.pc := hframe.pc_eq (by decide)
  have hsucc : (k + 1).toNat = k.toNat + 1 := by
    have := x.isLt
    rw [BitVec.toNat_add]
    simp
    omega
  have hop : t.opcodeAtPc = wordOfBytes (s.reg k) (s.reg (k + 1)) := by
    refine opcodeAtPc_eq ?_ ?_
    · rw [htpc, hpc, hstored k (by omega)]
    · rw [htpc, hpc, Nat.add_assoc, ← hsucc, hstored (k + 1) (by omega)]
  exact step_of_decode ((hframe.halt_eq (by decide)).trans hrun) (by rw [htpc]; omega) (by rw [hop, hd])

/-- In a completed run the opcode at `PC` is the encoding of a jump to `PC` (R292). -/
theorem opcodeAtPc_of_completed {s : State} (h : s.completed) :
    s.opcodeAtPc = encode (.jp (BitVec.ofNat 12 s.pc.toNat)) := by
  obtain ⟨-, hpc, hop⟩ := h
  apply BitVec.eq_of_toNat_eq
  rw [hop, encode, toNat_formatA, BitVec.toNat_ofNat (w := 12), Nat.mod_eq_of_lt (by omega)]
  rfl

/-- Settles O58: the jump puts back the `PC` that the fetch advanced. -/
theorem completedRunStaysPut : Obligations.CompletedRunStaysPut := by
  intro s h
  obtain ⟨hrun, hpc, -⟩ := id h
  have htarget : target (BitVec.ofNat 12 s.pc.toNat) = s.pc := by
    apply BitVec.eq_of_toNat_eq
    rw [toNat_target, BitVec.toNat_ofNat, Nat.mod_eq_of_lt (by omega)]
  rw [step_of_decode hrun (by omega) (by rw [opcodeAtPc_of_completed h, decode_encode]), exec, execJp, htarget]
  rfl

end Sys2Proof.Machine
end

section
/-! Reset (spec/10_state.md R27, R42, spec/70_reset_and_hazards.md R281 to R286): what every byte of memory holds, and the first
step after an empty image. -/

namespace Sys2Proof.Machine

/-- Outside the font a byte that nothing has written reads as zero (R27). -/
theorem resetByte_of_le {a : Nat} (h : 80 ≤ a) : resetByte a = 0 :=
  List.getD_eq_default _ _ h

/-- The font stands at the bottom of memory, below the image (R281). -/
theorem read_resetMemory_font (font : Vector Byte 80) (rom : List Byte) {k : Nat} (hk : k < 80) :
    (resetMemory font rom).read k = font[k] := by
  have hbelow : k < Config.romBase := Nat.lt_trans hk (by decide)
  have hat := Memory.read_writeList_at (vs := font.toList) (m := []) (a := 0) (k := k) rfl
    (by rw [Vector.length_toList]; decide) (by rwa [Vector.length_toList])
  rw [Nat.zero_add] at hat
  rw [resetMemory, Memory.read_writeList_other (.inl hbelow), hat, Vector.getElem_toList]

/-- Outside the font and the image every byte is zero (R27, R281). -/
theorem read_resetMemory_outside (font : Vector Byte 80) (rom : List Byte) {a : Nat} (hfont : 80 ≤ a)
    (himage : a < Config.romBase ∨ Config.romBase + rom.length ≤ a) : (resetMemory font rom).read a = 0 := by
  rw [resetMemory, Memory.read_writeList_other himage, Memory.read_writeList_other (.inr (by simpa using hfont)),
    Memory.read_nil, resetByte_of_le hfont]

/-- An image that is too long is refused (R284). -/
theorem resetWith_of_lt_length {rom : List Byte} (font : Vector Byte 80) (s : State) (h : Config.romMax < rom.length) :
    resetWith font rom s = none :=
  if_neg (Nat.not_le_of_lt h)

theorem State.reset_stackEntry (j : Nat) : State.reset.stackEntry j = 0 := by
  have hentries : State.reset.stack.toList = List.replicate 16 0 := Vector.toList_replicate
  rw [State.stackEntry, hentries, List.getD_eq_getElem?_getD]
  exact List.getElem?_getD_replicate_default_eq _ _ _

theorem State.reset_cell (cx cy : Nat) : State.reset.cell cx cy = false :=
  State.cell_setFb_clearedFb State.reset cx cy

/-- Settles O55: memory byte by byte, and every other piece is that of `State.reset`. -/
theorem resetLeavesTheListedValues : Obligations.ResetLeavesTheListedValues := by
  refine fun font rom s => ⟨fun hlen => ⟨_, resetWith_of_length_le font s hlen, ?_⟩, resetWith_of_lt_length font s⟩
  refine ⟨rfl, rfl, rfl, rfl, rfl, rfl, fun x => ?_, fun k => ?_, fun j => ?_, fun cx cy => ?_, fun k hk => ?_,
    fun a hfont himage => ?_⟩
  · simp [State.reg, State.reset]
  · simp [State.key, State.reset]
  · exact congrArg BitVec.toNat (State.reset_stackEntry j)
  · exact State.reset_cell cx cy
  · exact read_resetMemory_font font rom hk
  · exact congrArg BitVec.toNat (read_resetMemory_outside font rom hfont himage)

/-- Settles O56: with no image the two bytes at 0x200 are zero, and the word 0 is no instruction. -/
theorem emptyRomHaltsAtOnce : Obligations.EmptyRomHaltsAtOnce := by
  intro font s t h
  obtain ⟨hmem, hpc, hrun⟩ : t.mem = resetMemory font [] ∧ t.pc = 0x200 ∧ t.halt = none := by
    cases (resetWith_of_length_le font s (Nat.zero_le _)).symm.trans h
    exact ⟨rfl, rfl, rfl⟩
  have hzero : ∀ a, 0x200 ≤ a → t.byte a = 0 := fun a ha => by
    rw [State.byte, hmem, read_resetMemory_outside font [] (Nat.le_trans (by decide) ha) (.inr ha)]
  have hop : t.opcodeAtPc = wordOfBytes 0 0 := opcodeAtPc_eq (hzero _ (by simp [hpc])) (hzero _ (by simp [hpc]))
  have hbad : ¬ ∃ i, decode t.opcodeAtPc = .ok i := by
    rw [hop]
    rintro ⟨i, hi⟩
    cases hi
  rw [step_of_not_decodes hrun (by simp [hpc]) hbad, State.advance, hpc]
  rfl

end Sys2Proof.Machine
end

section
/-! The invariant (spec/10_state.md R26, R30): it looks at memory, `PC` and the stack alone, so each instruction keeps it by
what it does to those, and every action does. -/

namespace Sys2Proof.Machine

/-! What the invariant looks at. -/

/-- A state with the same memory, `PC` and stack meets the invariant too. -/
theorem State.Inv.of_eq {s t : State} (hs : s.Inv) (hmem : t.mem = s.mem) (hpc : t.pc = s.pc) (hstack : t.stack = s.stack)
    (hsp : t.sp = s.sp) : t.Inv := by
  obtain ⟨hwf, hbound, hentries⟩ := hs
  refine ⟨hmem ▸ hwf, hpc ▸ hbound, fun j hj => ?_⟩
  rw [State.stackEntry, hstack]
  exact hentries j (hsp ▸ hj)

theorem State.Inv.raise {s : State} (hs : s.Inv) (c : FaultCause) (a : Word) : (s.raise c a).Inv := hs.of_eq rfl rfl rfl rfl

theorem State.Inv.setPc {s : State} (hs : s.Inv) {w : Word} (hw : w.toNat ≤ 4350) : (s.setPc w).Inv := by
  obtain ⟨hwf, -, hentries⟩ := hs
  exact ⟨hwf, hw, hentries⟩

theorem State.Inv.setMem {s : State} (hs : s.Inv) {m : Memory} (hm : m.wf = true) : (s.setMem m).Inv := by
  obtain ⟨-, hbound, hentries⟩ := hs
  exact ⟨hm, hbound, hentries⟩

/-- A `PC` that can be advanced, or skipped, stays in range. -/
theorem State.Inv.setPc_add_two {s : State} (hs : s.Inv) (hpc : s.pc.toNat ≤ 4096) : (s.setPc (s.pc + 2)).Inv := by
  refine hs.setPc ?_
  rw [BitVec.toNat_add]
  simp
  omega

theorem State.Inv.skipIf {s : State} (hs : s.Inv) (hpc : s.pc.toNat ≤ 4096) (c : Bool) : (s.skipIf c).Inv := by
  cases c
  · exact hs
  · exact hs.setPc_add_two hpc

/-- A store that succeeds keeps the invariant. -/
theorem State.Inv.storeBytes {s t : State} {a : Nat} {vs : List Byte} (hs : s.Inv) (h : s.storeBytes a vs = .ok t) :
    t.Inv := by
  have hwf := storeBytes_wf hs.1 h
  rcases storeBytes_cases s a vs with ⟨-, e⟩ | ⟨-, -, e⟩ <;> cases h.symm.trans e
  exact hs.setMem hwf

/-- `push` of an address in memory's range keeps every live entry in range (R31). -/
theorem State.Inv.push {s t : State} {w : Word} (hs : s.Inv) (hw : w.toNat ≤ 4096) (h : s.push w = .ok t) : t.Inv := by
  obtain ⟨hwf, hbound, hentries⟩ := hs
  rcases push_cases s w with ⟨hroom, e⟩ | ⟨-, e⟩ <;> cases h.symm.trans e
  refine ⟨hwf, hbound, fun j hj => ?_⟩
  rw [stackEntry_set]
  split
  · exact hw
  · exact hentries j (by simp only at hj; omega)

/-- `pop` keeps the invariant and answers a live entry (R32). -/
theorem State.Inv.pop {s : State} {r : Word × State} (hs : s.Inv) (h : s.pop = .ok r) : r.1.toNat ≤ 4096 ∧ r.2.Inv := by
  obtain ⟨hwf, hbound, hentries⟩ := hs
  rcases pop_cases s with ⟨hused, e⟩ | ⟨-, e⟩ <;> cases h.symm.trans e
  refine ⟨?_, hwf, hbound, fun j hj => hentries j (by simp only at hj; omega)⟩
  have htop := hentries ⟨s.sp.val - 1, by omega⟩ (by simp only; omega)
  rwa [stackEntry_eq s _ (by omega)] at htop

/-- An answer meets the invariant when its computation does, since a fault writes `HALT` alone. -/
theorem State.Inv.of_complete {s t : State} {r : Except FaultCause State} (hs : s.Inv) (h : complete s r = .next t)
    (hok : ∀ u, r = .ok u → u.Inv) : t.Inv := by
  rcases complete_cases h with e | ⟨c, -, rfl⟩
  · exact hok t e
  · exact hs.raise c _

/-- The same for an answer computed from the result of an operation. -/
theorem State.Inv.of_complete_map {α : Type} {s t : State} {r : Except FaultCause α} {f : α → State} (hs : s.Inv)
    (h : complete s (r.map f) = .next t) (hok : ∀ a, r = .ok a → (f a).Inv) : t.Inv := by
  refine hs.of_complete h fun u e => ?_
  cases r with
  | error c => cases e
  | ok a => cases e; exact hok a rfl

/-! Instructions. -/

/-- `LD Vx, K` writes a register and a key, or puts `PC` back to the opcode's address (R214). -/
theorem State.Inv.of_execLdVxK {x : Nibble} {s t : State} (hs : s.Inv) (hpc : 2 ≤ s.pc.toNat) (h : execLdVxK x s = .next t) :
    t.Inv := by
  unfold execLdVxK at h
  split at h <;> cases h
  · obtain ⟨ks, e⟩ := consume_eq (s.setReg x _) _
    rw [e]
    exact hs.of_eq rfl rfl rfl rfl
  · refine hs.setPc ?_
    have hbound := hs.2.1
    rw [BitVec.toNat_sub_of_le (by rwa [BitVec.le_def])]
    omega

/-- An instruction fetched from memory, so with its advanced `PC` between 2 and 4096, keeps the invariant. -/
theorem State.Inv.of_exec {i : Instr} {s t : State} (hs : s.Inv) (hlo : 2 ≤ s.pc.toNat) (hhi : s.pc.toNat ≤ 4096)
    (h : exec i s = .next t) : t.Inv := by
  cases i with
  | ret =>
    refine hs.of_complete_map h fun r e => ?_
    obtain ⟨hentry, hr⟩ := hs.pop e
    exact hr.setPc (by omega)
  | call nnn =>
    refine hs.of_complete_map h fun u e => (hs.push hhi e).setPc ?_
    rw [toNat_target]
    omega
  | jp nnn =>
    cases h
    refine hs.setPc ?_
    rw [toNat_target]
    omega
  | jpV0 nnn =>
    cases h
    refine hs.setPc ?_
    rw [toNat_target_add_regWord]
    omega
  | seImm | sneImm | seReg | sneReg => cases h; exact hs.skipIf hhi _
  | skp | sknp => exact hs.of_complete_map h fun _ _ => hs.skipIf hhi _
  | ldVxK x => exact hs.of_execLdVxK hlo h
  | ldB => exact hs.of_complete h fun _ e => hs.storeBytes e
  | stRegs => exact hs.of_complete_map h fun _ e => (hs.storeBytes e).of_eq rfl rfl rfl rfl
  | ldRegs =>
    refine hs.of_complete_map h fun bs _ => ?_
    obtain ⟨vs, e⟩ := setRegsFrom_eq s 0 bs
    rw [e]
    exact hs.of_eq rfl rfl rfl rfl
  | drw => exact hs.of_complete_map h fun _ _ => hs.of_eq rfl rfl rfl rfl
  | _ => cases h; exact hs.of_eq rfl rfl rfl rfl

/-! Steps, actions and executions. -/

/-- Settles O12: memory lists nothing, `PC` is 0x200 and the stack is empty. -/
theorem resetMeetsTheInvariant : Obligations.ResetMeetsTheInvariant :=
  ⟨rfl, by decide, fun _ hj => absurd hj (Nat.not_lt_zero _)⟩

/-- Settles O13: a fetch happens only with `PC` at most 4094, and with `PC` advanced from there each instruction keeps the
invariant. -/
theorem stepKeepsTheInvariant : Obligations.StepKeepsTheInvariant := by
  intro s t hs h
  have hadvance : s.pc.toNat ≤ 4094 → s.advance.Inv ∧ s.advance.pc.toNat = s.pc.toNat + 2 := fun hpc => by
    refine ⟨hs.setPc_add_two (by omega), ?_⟩
    rw [State.advance_pc, BitVec.toNat_add]
    simp
    omega
  obtain ⟨-, ⟨-, rfl⟩ | ⟨hpc, rfl⟩ | ⟨hpc, i, -, hexec⟩⟩ := step_cases h
  · exact hs.raise _ _
  · exact (hadvance hpc).1.raise _ _
  · obtain ⟨hinv, hnat⟩ := hadvance hpc
    exact hinv.of_exec (by omega) (by omega) hexec

/-- Memory after a reset is canonical: both loads stay inside 4096 bytes. -/
theorem wf_resetMemory {rom : List Byte} (font : Vector Byte 80) (h : rom.length ≤ Config.romMax) :
    (resetMemory font rom).wf = true :=
  Memory.wf_writeList (wf_writeList_font font) (romBase_add_length_le_memSize h)

/-- A reset that happens meets the invariant, whatever was before it. -/
theorem inv_of_resetWith {font : Vector Byte 80} {rom : List Byte} {s t : State} (h : resetWith font rom s = some t) :
    t.Inv := by
  by_cases hlen : rom.length ≤ Config.romMax
  · cases (resetWith_of_length_le font s hlen).symm.trans h
    obtain ⟨-, hbound, hentries⟩ := resetMeetsTheInvariant
    exact ⟨wf_resetMemory font hlen, hbound, hentries⟩
  · cases (resetWith_of_lt_length font s (Nat.lt_of_not_le hlen)).symm.trans h

/-- Every action keeps the invariant. -/
theorem State.Inv.of_act {a : Action} {s t : State} {out : List Output} (hs : s.Inv) (h : act a s = some (t, out)) : t.Inv := by
  obtain ⟨-, hstep, -⟩ | ⟨-, -, rfl, -⟩ | ⟨k, -, rfl, -⟩ | ⟨k, -, rfl, -⟩ | ⟨-, rfl, -⟩ | ⟨font, rom, -, hreset, -⟩ := act_cases h
  · exact stepKeepsTheInvariant s t hs hstep
  · exact hs.of_eq rfl rfl rfl rfl
  · obtain ⟨ks, e⟩ := keyPress_eq k s
    rw [e]
    exact hs.of_eq rfl rfl rfl rfl
  · exact hs.of_eq rfl rfl rfl rfl
  · exact hs
  · exact inv_of_resetWith hreset

/-- An execution's first action and what follows it. -/
theorem run_cons_eq_some {a : Action} {as : List Action} {s t : State} {out : List Output}
    (h : run (a :: as) s = some (t, out)) :
    ∃ u first rest, act a s = some (u, first) ∧ run as u = some (t, rest) ∧ out = first ++ rest := by
  rw [run] at h
  split at h
  · cases h
  · rename_i u first hact
    obtain ⟨⟨v, rest⟩, hrun, e⟩ := Option.map_eq_some_iff.1 h
    cases e
    exact ⟨u, first, rest, hact, hrun, rfl⟩

/-- Settles O14, by induction on the actions. -/
theorem everyExecutionKeepsTheInvariant : Obligations.EveryExecutionKeepsTheInvariant := by
  intro as
  induction as with
  | nil =>
    intro s t out hs h
    cases h
    exact hs
  | cons a as ih =>
    intro s t out hs h
    obtain ⟨u, first, rest, hact, hrun, -⟩ := run_cons_eq_some h
    exact ih u t rest (hs.of_act hact) hrun

end Sys2Proof.Machine
end

section
/-! Arithmetic with a flag, shifts and random bytes (spec/41_alu.md R146 to R153): the five flag-writing instructions are one
pair of writes, so one lemma gives what the pair leaves for each kind of `X`, and the values are arithmetic on bytes. -/

namespace Sys2Proof.Machine

/-! Flags and results as numbers. -/

theorem toNat_flagOf (c : Bool) : (flagOf c).toNat = if c then 1 else 0 := by cases c <;> rfl

theorem carryFlag_eq (a b : Byte) : carryFlag a b = if a.toNat + b.toNat > 255 then 1#8 else 0#8 := by
  simp [carryFlag, flagOf]

theorem noBorrowFlag_eq (a b : Byte) : noBorrowFlag a b = if a.toNat ≥ b.toNat then 1#8 else 0#8 := by
  simp [noBorrowFlag, flagOf]

theorem toNat_carryFlag (a b : Byte) : (carryFlag a b).toNat = if a.toNat + b.toNat > 255 then 1 else 0 := by
  simp [carryFlag, toNat_flagOf]

theorem toNat_noBorrowFlag (a b : Byte) : (noBorrowFlag a b).toNat = if a.toNat ≥ b.toNat then 1 else 0 := by
  simp [noBorrowFlag, toNat_flagOf]

theorem toNat_shiftedOutRight (a : Byte) : (shiftedOutRight a).toNat = a.toNat % 2 := by
  simp [shiftedOutRight]

theorem toNat_shiftedOutLeft (a : Byte) : (shiftedOutLeft a).toNat = a.toNat / 128 := by
  simp [shiftedOutLeft, Nat.shiftRight_eq_div_pow]

theorem toNat_sub_byte (a b : Byte) : (a - b).toNat = (a.toNat + 256 - b.toNat) % 256 := by
  have := b.isLt
  rw [BitVec.toNat_sub]
  omega

theorem toNat_shiftRight_one (a : Byte) : (a >>> 1).toNat = a.toNat / 2 := by
  simp [Nat.shiftRight_eq_div_pow]

theorem toNat_shiftLeft_one (a : Byte) : (a <<< 1).toNat = a.toNat * 2 % 256 := by
  simp [Nat.shiftLeft_eq]

/-! The pair of writes (R146). -/

/-- `V[X]` ends as the result, computed with the flag already in `VF`. -/
theorem reg_flagThenResult_same (s : State) (f : Byte) (x : Nibble) (g : State → Byte) :
    (s.flagThenResult f x g).reg x = g (s.setReg 15#4 f) := by
  rw [reg_flagThenResult, if_pos rfl]
  rfl

/-- With `X` other than 15 the flag stays in `VF`. -/
theorem reg_flagThenResult_flag (s : State) (f : Byte) {x : Nibble} (hx : x ≠ 15#4) (g : State → Byte) :
    (s.flagThenResult f x g).reg 15#4 = f := by
  rw [reg_flagThenResult, if_neg hx.symm, if_pos (show (15#4 : Nibble) = flagReg from rfl)]

/-- The frame of the pair, beside what is said of `VF` and `V[X]`. -/
theorem completes_of_eq_flagThenResult {o : Answer} {s : State} {f : Byte} {x : Nibble} {g : State → Byte}
    {P Q : State → Prop} (ho : o = .next (s.flagThenResult f x g)) (hP : P (s.flagThenResult f x g))
    (hQ : Q (s.flagThenResult f x g)) : Completes o fun t => P t ∧ Q t ∧ RegsSameBut [x, 15#4] s t ∧ SameBut [.v] s t :=
  ⟨_, ho, hP, hQ, regsSameBut_flagThenResult s f x g, sameBut_flagThenResult s f x g⟩

/-- With `X` = 15 the pair writes one register. -/
theorem completes_of_eq_flagThenResult_flag {o : Answer} {s : State} {f : Byte} {g : State → Byte} {P : State → Prop}
    (ho : o = .next (s.flagThenResult f 15#4 g)) (hP : P (s.flagThenResult f 15#4 g)) :
    Completes o fun t => P t ∧ RegsSameBut [15#4] s t ∧ SameBut [.v] s t :=
  ⟨_, ho, hP, fun y hy => regsSameBut_flagThenResult s f 15#4 g y (by simpa [flagReg] using hy),
    sameBut_flagThenResult s f 15#4 g⟩

/-! The statements. -/

/-- Settles O24: with neither operand `VF` the flag write leaves both operands as they were. -/
theorem addAndSubtractSetTheFlag : Obligations.AddAndSubtractSetTheFlag := by
  intro x y s hx hy
  refine ⟨completes_of_eq_flagThenResult rfl ?_ ?_, completes_of_eq_flagThenResult rfl ?_ ?_,
    completes_of_eq_flagThenResult rfl ?_ ?_⟩
  · rw [reg_flagThenResult_flag s _ hx, carryFlag_eq]
  · rw [reg_flagThenResult_same, State.reg_setReg_other s hx, State.reg_setReg_other s hy, BitVec.toNat_add]
  · rw [reg_flagThenResult_flag s _ hx, noBorrowFlag_eq]
  · rw [reg_flagThenResult_same, State.reg_setReg_other s hx, State.reg_setReg_other s hy, toNat_sub_byte]
  · rw [reg_flagThenResult_flag s _ hx, noBorrowFlag_eq]
  · rw [reg_flagThenResult_same, State.reg_setReg_other s hx, State.reg_setReg_other s hy, toNat_sub_byte]

/-- Settles O25: the operand is read after the flag write, which with `X` = 15 has replaced it by the bit shifted out. -/
theorem shiftsSetTheFlag : Obligations.ShiftsSetTheFlag := by
  refine ⟨fun x y s hx => completes_of_eq_flagThenResult rfl ?_ ?_,
    fun x y s hx => completes_of_eq_flagThenResult rfl ?_ ?_, fun y s => completes_of_eq_flagThenResult_flag rfl ?_,
    fun y s => completes_of_eq_flagThenResult_flag rfl ?_⟩
  · rw [reg_flagThenResult_flag s _ hx, toNat_shiftedOutRight]
  · rw [reg_flagThenResult_same, State.reg_setReg_other s hx, toNat_shiftRight_one]
  · rw [reg_flagThenResult_flag s _ hx, toNat_shiftedOutLeft]
  · rw [reg_flagThenResult_same, State.reg_setReg_other s hx, toNat_shiftLeft_one]
  · rw [reg_flagThenResult_same, State.reg_setReg_same, toNat_shiftRight_one, toNat_shiftedOutRight]
    omega
  · have := (s.reg 15#4).isLt
    rw [reg_flagThenResult_same, State.reg_setReg_same, toNat_shiftLeft_one, toNat_shiftedOutLeft]
    omega

/-- Settles O26: the operand that is `VF` reads as the flag, the other as before the flag write. -/
theorem flagFirstWhenVfIsAnOperand : Obligations.FlagFirstWhenVfIsAnOperand := by
  refine ⟨fun x s hx => ⟨completes_of_eq_flagThenResult rfl ?_ ?_, completes_of_eq_flagThenResult rfl ?_ ?_,
      completes_of_eq_flagThenResult rfl ?_ ?_⟩,
    fun y s hy => ⟨completes_of_eq_flagThenResult_flag rfl ?_, completes_of_eq_flagThenResult_flag rfl ?_,
      completes_of_eq_flagThenResult_flag rfl ?_⟩,
    fun s => ⟨completes_of_eq_flagThenResult_flag rfl ?_, completes_of_eq_flagThenResult_flag rfl ?_,
      completes_of_eq_flagThenResult_flag rfl ?_⟩⟩
  · rw [reg_flagThenResult_flag s _ hx, toNat_carryFlag]
  · rw [reg_flagThenResult_same, State.reg_setReg_other s hx, State.reg_setReg_same, BitVec.toNat_add, toNat_carryFlag]
  · rw [reg_flagThenResult_flag s _ hx, toNat_noBorrowFlag]
  · rw [reg_flagThenResult_same, State.reg_setReg_other s hx, State.reg_setReg_same, toNat_sub_byte, toNat_noBorrowFlag]
  · rw [reg_flagThenResult_flag s _ hx, toNat_noBorrowFlag]
  · rw [reg_flagThenResult_same, State.reg_setReg_other s hx, State.reg_setReg_same, toNat_sub_byte, toNat_noBorrowFlag]
  · rw [reg_flagThenResult_same, State.reg_setReg_same, State.reg_setReg_other s hy, BitVec.toNat_add, toNat_carryFlag]
  · rw [reg_flagThenResult_same, State.reg_setReg_same, State.reg_setReg_other s hy, toNat_sub_byte, toNat_noBorrowFlag]
  · rw [reg_flagThenResult_same, State.reg_setReg_same, State.reg_setReg_other s hy, toNat_sub_byte, toNat_noBorrowFlag]
  · rw [reg_flagThenResult_same, State.reg_setReg_same, BitVec.toNat_add, toNat_carryFlag, ← Nat.two_mul, ← Nat.two_mul]
    split_ifs <;> rfl
  · rw [reg_flagThenResult_same, State.reg_setReg_same, BitVec.sub_self]
    rfl
  · rw [reg_flagThenResult_same, State.reg_setReg_same, BitVec.sub_self]
    rfl

/-- Settles O27: each bit of the result is a bit of the draw under a bit of the mask, and a mask bounds what passes it. -/
theorem randomByteIsMasked : Obligations.RandomByteIsMasked := by
  refine fun x nn s => ⟨_, rfl, fun k => ?_, ?_, rfl, fun y hy => ?_, ?_⟩
  · rw [State.reg_countDraw, State.reg_setReg_same, BitVec.getLsbD_and]
  · rw [State.reg_countDraw, State.reg_setReg_same, BitVec.toNat_and]
    exact Nat.and_le_right
  · rw [State.reg_countDraw]
    exact regsSameBut_setReg s x _ y hy
  · exact (sameBut_setReg s x _).append (sameBut_countDraw _)

/-- Settles O31: the sum is taken modulo the width of `I`, and five times a byte fits in it. -/
theorem indexArithmetic : Obligations.IndexArithmetic := by
  refine ⟨fun x s => ⟨_, rfl, ?_, sameBut_addToI s _⟩, fun x s => ⟨_, rfl, ?_, sameBut_setI s _⟩⟩
  · exact BitVec.toNat_ofNat _ _
  · have := (s.reg x).isLt
    rw [State.setI_i, glyphAddress, BitVec.toNat_ofNat]
    omega

end Sys2Proof.Machine
end

section
/-! The sprite (spec/43_display.md R192 to R195): the blit's cells are those that `spriteCovers` names, so a draw is a flip of
each of them and a collision is one of them that was on. -/

namespace Sys2Proof.Machine

/-! Cells and their indexes (R35). -/

/-- On the screen no coordinate is reduced. -/
theorem val_cellIndex {cx cy : Nat} (hx : cx < 64) (hy : cy < 32) : (cellIndex cx cy).val = cy * 64 + cx := by
  simp only [cellIndex]
  omega

/-- Every index is that of a cell on the screen. -/
theorem exists_cellIndex_eq (j : Fin 2048) : ∃ cx cy, cx < 64 ∧ cy < 32 ∧ cellIndex cx cy = j :=
  ⟨j.val % 64, j.val / 64, Nat.mod_lt _ (by decide), by omega, Fin.ext (by simp only [cellIndex]; omega)⟩

theorem cell_eq_getElem_cellIndex (s : State) {cx cy : Nat} (hx : cx < 64) (hy : cy < 32) :
    s.cell cx cy = s.fb[(cellIndex cx cy).val] := by
  rw [cell_eq s cx cy (by omega)]
  simp only [val_cellIndex hx hy]

/-- Two frame buffers that agree at every cell are equal. -/
theorem fb_eq_of_cell_eq {s t : State} (h : ∀ cx cy, cx < 64 → cy < 32 → t.cell cx cy = s.cell cx cy) : t.fb = s.fb := by
  refine Vector.ext fun k hk => ?_
  obtain ⟨cx, cy, hx, hy, e⟩ := exists_cellIndex_eq ⟨k, hk⟩
  have hcell := h cx cy hx hy
  rw [cell_eq_getElem_cellIndex t hx hy, cell_eq_getElem_cellIndex s hx hy] at hcell
  simpa only [e] using hcell

/-! The cells of a draw. -/

/-- The rows of the sprite that `DXYN` draws, the `N` bytes from `I` up (R193). -/
def State.spriteRows (s : State) (n : Nibble) : List Byte := s.mem.readList s.i.toNat n.toNat

/-- The indexes of the cells that `DXYN` draws on. -/
def State.drawnCells (s : State) (x y n : Nibble) : List (Fin 2048) :=
  spriteCells (s.reg x).toNat (s.reg y).toNat (s.spriteRows n)

theorem nodup_drawnCells (s : State) (x y n : Nibble) : (s.drawnCells x y n).Nodup := by
  refine nodup_spriteCells _ _ _ ?_
  have := n.isLt
  rw [State.spriteRows, Memory.length_readList]
  omega

/-- The blit's cells are the covered ones: going back from a cell to its row and column undoes the wrap (R194). -/
theorem mem_drawnCells_iff (s : State) (x y n : Nibble) {cx cy : Nat} (hx : cx < 64) (hy : cy < 32) :
    cellIndex cx cy ∈ s.drawnCells x y n ↔ s.spriteCovers x y n cx cy = true := by
  have hn : n.toNat < 16 := n.isLt
  have hlen : (s.spriteRows n).length = n.toNat := Memory.length_readList _ _ _
  have hrow : ∀ r (h : r < (s.spriteRows n).length), (s.spriteRows n)[r] = s.byte (s.i.toNat + r) :=
    fun r h => Memory.getElem_readList _ _ _ r h
  simp only [State.drawnCells, mem_spriteCells, State.spriteCovers, Bool.and_eq_true, decide_eq_true_eq, Fin.ext_iff,
    val_cellIndex hx hy, hrow, hlen]
  constructor
  · rintro ⟨r, hr, c, hc, hbit, e⟩
    simp only [cellIndex] at e
    have hcol : (cx + 64 - (s.reg x).toNat % 64) % 64 = c := by omega
    have hline : (cy + 32 - (s.reg y).toNat % 32) % 32 = r := by omega
    rw [hcol, hline]
    exact ⟨⟨hc, hr⟩, hbit⟩
  · rintro ⟨⟨hc, hr⟩, hbit⟩
    refine ⟨_, hr, _, hc, hbit, ?_⟩
    simp only [cellIndex]
    omega

/-! The instruction. -/

/-- A sprite inside memory is drawn from its rows (R193). -/
theorem exec_drw_of_fits {x y n : Nibble} {s : State} (h : n.toNat = 0 ∨ s.i.toNat + n.toNat ≤ 4096) :
    exec (.drw x y n) s = .next ((s.setFb (s.drawSprite x y (s.spriteRows n)).1).setReg flagReg
      (flagOf (s.drawSprite x y (s.spriteRows n)).2)) := by
  have hload : s.loadBytes s.dataBase n.toNat = .ok (s.spriteRows n) := loadBytes_fits h
  simp only [exec, execDrw, hload, Except.map, complete_ok]

/-- The draw flips the covered cells. -/
theorem cell_drawSprite (s : State) (x y n : Nibble) {cx cy : Nat} (hx : cx < 64) (hy : cy < 32) (f : Byte) :
    ((s.setFb (s.drawSprite x y (s.spriteRows n)).1).setReg flagReg f).cell cx cy =
      (s.cell cx cy != s.spriteCovers x y n cx cy) := by
  have hcovers : decide (cellIndex cx cy ∈ s.drawnCells x y n) = s.spriteCovers x y n cx cy := by
    rw [Bool.eq_iff_iff, decide_eq_true_eq, mem_drawnCells_iff s x y n hx hy]
  rw [cell_eq_getElem_cellIndex _ hx hy, cell_eq_getElem_cellIndex s hx hy, ← hcovers, State.setReg_fb, State.setFb_fb,
    State.drawSprite, blitRows_eq]
  exact foldl_blitCell_fb _ (nodup_drawnCells s x y n) _ _ _

/-- The draw collides exactly when a covered cell was on. -/
theorem drawSprite_collides_iff (s : State) (x y n : Nibble) :
    (s.drawSprite x y (s.spriteRows n)).2 = true ↔
      ∃ cx cy, cx < 64 ∧ cy < 32 ∧ s.spriteCovers x y n cx cy = true ∧ s.cell cx cy = true := by
  have hany : (s.drawSprite x y (s.spriteRows n)).2 = (s.drawnCells x y n).any fun j => s.fb[j.val] := by
    rw [State.drawSprite, blitRows_eq]
    exact (foldl_blitCell_collided _ (nodup_drawnCells s x y n) _).trans (Bool.false_or _)
  rw [hany, List.any_eq_true]
  constructor
  · rintro ⟨j, hj, hon⟩
    obtain ⟨cx, cy, hx, hy, rfl⟩ := exists_cellIndex_eq j
    exact ⟨cx, cy, hx, hy, (mem_drawnCells_iff s x y n hx hy).1 hj, (cell_eq_getElem_cellIndex s hx hy).trans hon⟩
  · rintro ⟨cx, cy, hx, hy, hcov, hon⟩
    exact ⟨_, (mem_drawnCells_iff s x y n hx hy).2 hcov, (cell_eq_getElem_cellIndex s hx hy).symm.trans hon⟩

/-- Settles O38: the frame buffer by the cells that flip, `VF` by the collision, in both directions. -/
theorem spriteFlipsTheCellsItCovers : Obligations.SpriteFlipsTheCellsItCovers := by
  intro x y n s hfits
  refine ⟨_, exec_drw_of_fits hfits, fun cx cy hx hy => cell_drawSprite s x y n hx hy _, fun hon => ?_, fun hoff => ?_,
    regsSameBut_setReg _ _ _, (sameBut_setFb s _).append (sameBut_setReg _ _ _)⟩
  · rw [(drawSprite_collides_iff s x y n).2 hon]
    exact State.reg_setReg_same _ _ _
  · have hno : (s.drawSprite x y (s.spriteRows n)).2 = false := by
      rw [← Bool.not_eq_true, drawSprite_collides_iff]
      rintro ⟨cx, cy, hx, hy, hcov, hon⟩
      exact Bool.false_ne_true ((hoff cx cy hx hy hcov).symm.trans hon)
    rw [hno]
    exact State.reg_setReg_same _ _ _

/-- Settles O39: the whole range of rows is checked before anything is drawn. -/
theorem spritePastMemoryFaults : Obligations.SpritePastMemoryFaults :=
  fun _ _ _ _ hn hpast => completes_tookFault_map (loadBytes_past hn hpast)

/-- The covered cells depend on `I`, memory and the two coordinates alone. -/
theorem spriteCovers_eq {s t : State} {x y : Nibble} (hi : t.i = s.i) (hbyte : ∀ a, t.byte a = s.byte a)
    (hx : t.reg x = s.reg x) (hy : t.reg y = s.reg y) (n : Nibble) (cx cy : Nat) :
    t.spriteCovers x y n cx cy = s.spriteCovers x y n cx cy := by
  simp only [State.spriteCovers, hi, hbyte, hx, hy]

/-- Settles O40: the first draw leaves `I`, memory and the coordinates, so the second flips the same cells back. -/
theorem drawingTwiceErases : Obligations.DrawingTwiceErases := by
  intro x y n s t u hfits hx hy hst htu
  obtain ⟨hflip, -, -, hregs, hframe⟩ := (spriteFlipsTheCellsItCovers x y n s hfits).of_next hst
  have hi : t.i = s.i := hframe.i_eq (by decide)
  obtain ⟨hflip', hcollide, -⟩ := (spriteFlipsTheCellsItCovers x y n t (by rwa [hi])).of_next htu
  have hcovers := spriteCovers_eq hi (hframe.byte_eq (by decide)) (hregs x (by simpa using hx)) (hregs y (by simpa using hy)) n
  refine ⟨fb_eq_of_cell_eq fun cx cy hcx hcy => ?_, ?_⟩
  · rw [hflip' cx cy hcx hcy, hflip cx cy hcx hcy, hcovers, Bool.bne_assoc, bne_self_eq_false, Bool.bne_false]
  · rintro ⟨cx, cy, hcx, hcy, hcov, hoff⟩
    refine hcollide ⟨cx, cy, hcx, hcy, (hcovers cx cy).trans hcov, ?_⟩
    rw [hflip cx cy hcx hcy, hcov, hoff]
    rfl

end Sys2Proof.Machine
end

section
/-! Who writes what (spec/10_state.md R20 to R38): the writers of each piece read off the instructions' frames, and of `VF` by
the register each instruction names (R22). -/

namespace Sys2Proof.Machine

/-- Settles O36: a piece of state is in the frame of the listed instructions alone. -/
theorem eachPieceHasItsWriters : Obligations.EachPieceHasItsWriters := by
  intro i s t h
  have hframe := exec_sameBut h
  generalize i.op = o at hframe ⊢
  refine ⟨fun ho => hframe.reg_eq ?_, fun ho => hframe.i_eq ?_, fun ho => hframe.byte_eq ?_, fun ho => hframe.fb_eq ?_,
    fun ho => hframe.dt_eq ?_, fun ho => hframe.st_eq ?_, fun ho => hframe.pc_eq ?_,
    fun ho => ⟨hframe.stack_eq ?_, hframe.sp_eq ?_⟩, fun ho => hframe.key_eq ?_, fun ho => hframe.halt_eq ?_,
    fun ho => hframe.draws_eq ?_⟩
  all_goals
    clear hframe
    revert ho
    cases o <;> decide

/-! `VF` (R22). -/

/-- An instruction whose `X` field is not 15 names another register by it. -/
theorem fifteen_ne_of_xField {i : Instr} {x : Nibble} (h : xField i ≠ some 15#4) (hx : xField i = some x) : 15#4 ≠ x :=
  fun e => h (e ▸ hx)

/-- Loading registers up to `V[X]` with `X` other than 15 does not reach `VF` (R176). -/
theorem reg_setRegsFrom_fifteen {s : State} {x : Nibble} {bs : List Byte} (hx : 15#4 ≠ x) (hlen : bs.length = x.toNat + 1) :
    (s.setRegsFrom 0 bs).reg 15#4 = s.reg 15#4 := by
  have hlt : x.toNat < 15 := by
    have := x.isLt
    have : x.toNat ≠ 15 := fun e => hx (BitVec.eq_of_toNat_eq e.symm)
    omega
  rw [reg_setRegsFrom s 0 bs (by omega), dif_neg]
  rintro ⟨-, h⟩
  have : (15#4).toNat = 15 := rfl
  omega

/-- `LD Vx, [I]` with `X` other than 15 leaves `VF`, faulting or not. -/
theorem execLdRegs_reg_fifteen {x : Nibble} {s t : State} (hx : 15#4 ≠ x) (h : execLdRegs x s = .next t) :
    t.reg 15#4 = s.reg 15#4 := by
  rcases loadBytes_cases s s.dataBase (x.toNat + 1) with ⟨-, e⟩ | ⟨-, -, e⟩ <;> rw [execLdRegs, e] at h <;> cases h
  · exact reg_setRegsFrom_fifteen hx (Memory.length_readList _ _ _)
  · rfl

/-- `LD Vx, K` with `X` other than 15 leaves `VF`. -/
theorem execLdVxK_reg_fifteen {x : Nibble} {s t : State} (hx : 15#4 ≠ x) (h : execLdVxK x s = .next t) :
    t.reg 15#4 = s.reg 15#4 := by
  unfold execLdVxK at h
  split at h <;> cases h
  · rw [(sameBut_consume _ _).reg_eq (by decide), State.reg_setReg_other s hx]
  · rfl

/-- Outside the six, an instruction whose `X` field is not 15 leaves `VF`. -/
theorem exec_reg_fifteen {i : Instr} {s t : State} (h : exec i s = .next t) (hx : xField i ≠ some 15#4)
    (hi : i.op ∉ [Op.addReg, .sub, .shr, .subn, .shl, .drw]) : t.reg 15#4 = s.reg 15#4 := by
  cases i with
  | addReg | sub | shr | subn | shl | drw => exact absurd (by simp [Instr.op]) hi
  | ldImm | addImm | ldReg | or | and | xor | ldVxDt | rnd =>
    cases h
    exact State.reg_setReg_other s (fifteen_ne_of_xField hx rfl) _
  | ldVxK x => exact execLdVxK_reg_fifteen (fifteen_ne_of_xField hx rfl) h
  | ldRegs x => exact execLdRegs_reg_fifteen (fifteen_ne_of_xField hx rfl) h
  | _ => exact (exec_sameBut h).reg_eq (by simp [Instr.op, piecesWritten]) _

/-- A byte whose number is below 2 is one of the two flag values. -/
theorem eq_zero_or_eq_one_of_toNat_lt {b : Byte} (h : b.toNat < 2) : b = 0#8 ∨ b = 1#8 := by
  rcases Nat.lt_succ_iff_lt_or_eq.1 h with h0 | h1
  · exact .inl (BitVec.eq_of_toNat_eq (Nat.lt_one_iff.1 h0))
  · exact .inr (BitVec.eq_of_toNat_eq h1)

theorem flagOf_eq_zero_or_one (c : Bool) : flagOf c = 0#8 ∨ flagOf c = 1#8 := by
  cases c
  · exact .inl rfl
  · exact .inr rfl

/-- The five with a flag of their own leave it in `VF` when their `X` field is not 15. -/
theorem exec_reg_fifteen_of_flag {i : Instr} {s t : State} (h : exec i s = .next t) (hx : xField i ≠ some 15#4)
    (hi : i.op ∈ [Op.addReg, .sub, .shr, .subn, .shl]) : t.reg 15#4 = 0#8 ∨ t.reg 15#4 = 1#8 := by
  cases i with
  | addReg | sub | subn =>
    cases h
    rw [reg_flagThenResult_flag s _ (fifteen_ne_of_xField hx rfl).symm]
    exact flagOf_eq_zero_or_one _
  | shr =>
    cases h
    rw [reg_flagThenResult_flag s _ (fifteen_ne_of_xField hx rfl).symm]
    exact eq_zero_or_eq_one_of_toNat_lt (by rw [toNat_shiftedOutRight]; omega)
  | shl =>
    cases h
    rw [reg_flagThenResult_flag s _ (fifteen_ne_of_xField hx rfl).symm]
    exact eq_zero_or_eq_one_of_toNat_lt (by rw [toNat_shiftedOutLeft]; omega)
  | _ => exact absurd hi (by simp [Instr.op])

/-- `DRW` that does not fault leaves the collision in `VF`. -/
theorem exec_drw_reg_fifteen {x y n : Nibble} {s t : State} (h : exec (.drw x y n) s = .next t)
    (hf : expectedFault (.drw x y n) s = none) : t.reg 15#4 = 0#8 ∨ t.reg 15#4 = 1#8 := by
  have hfits : n.toNat = 0 ∨ s.i.toNat + n.toNat ≤ 4096 := by
    by_contra hno
    cases hf.symm.trans (if_pos (by omega))
  rw [exec_drw_of_fits hfits] at h
  cases h
  rw [show (15#4 : Nibble) = flagReg from rfl, State.reg_setReg_same]
  exact flagOf_eq_zero_or_one _

/-- Settles O28: the register an instruction writes is that of its `X` field, beside the flags of the six. -/
theorem onlySixInstructionsWriteTheFlag : Obligations.OnlySixInstructionsWriteTheFlag := by
  refine fun i s t h hx => ⟨exec_reg_fifteen h hx, exec_reg_fifteen_of_flag h hx, fun hi hf => ?_⟩
  cases i with
  | drw x y n => exact exec_drw_reg_fifteen h hf
  | _ => exact absurd hi (by simp [Instr.op])

/-! No other channel for keys and timers (R241). -/

/-- `s` with other keys and timers. -/
def State.withInputs (s : State) (keys : Vector KeyState 16) (dt st : Byte) : State := { s with keys := keys, dt := dt, st := st }

theorem sameBut_withInputs (s : State) (keys : Vector KeyState 16) (dt st : Byte) :
    SameBut [.keys, .dt, .st] s (s.withInputs keys dt st) := by
  simp [SameBut, State.withInputs, State.byte, State.reg]

/-- Canonical states that differ only in keys and timers are such variants of each other. -/
theorem eq_withInputs {s t : State} (hs : s.mem.wf = true) (ht : t.mem.wf = true) (h : SameBut [.keys, .dt, .st] s t) :
    t = s.withInputs t.keys t.dt t.st := by
  have hmem : t.mem = s.mem := Memory.ext_of_wf ht hs (h.byte_eq (by decide))
  have hv : t.v = s.v := State.v_ext (h.reg_eq (by decide))
  rw [State.withInputs, ← hmem, ← hv, ← h.i_eq (by decide), ← h.pc_eq (by decide), ← h.stack_eq (by decide),
    ← h.sp_eq (by decide), ← h.fb_eq (by decide), ← h.halt_eq (by decide), ← h.draws_eq (by decide)]

/-- An answer with other keys and timers in its next state. -/
def answerWithInputs (keys : Vector KeyState 16) (dt st : Byte) : Answer → Answer
  | .next t => .next (t.withInputs keys dt st)
  | .fault r => .fault r
  | .refused r => .refused r

section

variable (s : State) (keys : Vector KeyState 16) (dt st : Byte)

/-- An answer computed from the same result by a function that ignores keys and timers. -/
theorem complete_map_withInputs {α : Type} {r : Except FaultCause α} {f g : α → State}
    (hg : ∀ a, g a = (f a).withInputs keys dt st) :
    complete (s.withInputs keys dt st) (r.map g) = answerWithInputs keys dt st (complete s (r.map f)) := by
  cases r with
  | error c => rfl
  | ok a => exact congrArg Host.Outcome.next (hg a)

theorem skipIf_withInputs (c : Bool) : (s.withInputs keys dt st).skipIf c = (s.skipIf c).withInputs keys dt st := by
  cases c <;> rfl

theorem setRegsFrom_withInputs (k : Nat) (bs : List Byte) :
    (s.withInputs keys dt st).setRegsFrom k bs = (s.setRegsFrom k bs).withInputs keys dt st := by
  induction bs generalizing s k with
  | nil => rfl
  | cons b bs ih => exact ih (s.setReg (BitVec.ofNat 4 k) b) (k + 1)

theorem execRet_withInputs : execRet (s.withInputs keys dt st) = answerWithInputs keys dt st (execRet s) := by
  unfold execRet
  rcases pop_cases s with ⟨h, e⟩ | ⟨h, e⟩ <;> rw [e]
  · exact congrArg (fun r => complete _ (Except.map _ r)) (dif_pos h)
  · exact congrArg (fun r => complete _ (Except.map _ r)) (dif_neg (Nat.not_lt.2 (Nat.le_of_eq h)))

theorem execCall_withInputs (nnn : Addr) :
    execCall nnn (s.withInputs keys dt st) = answerWithInputs keys dt st (execCall nnn s) := by
  unfold execCall
  rcases push_cases s s.pc with ⟨h, e⟩ | ⟨h, e⟩ <;> rw [e]
  · exact congrArg (fun r => complete _ (Except.map _ r)) (dif_pos h)
  · exact congrArg (fun r => complete _ (Except.map _ r)) (dif_neg (Nat.not_lt.2 (Nat.le_of_eq h.symm)))

theorem execLdB_withInputs (x : Nibble) :
    execLdB x (s.withInputs keys dt st) = answerWithInputs keys dt st (execLdB x s) := by
  unfold execLdB
  rcases storeBytes_cases s s.dataBase (bcdDigits (s.reg x)) with ⟨h, e⟩ | ⟨h0, h, e⟩ <;> rw [e]
  · exact congrArg (complete _) (storeBytes_fits h)
  · exact congrArg (complete _) (storeBytes_past h0 h)

theorem execStRegs_withInputs (x : Nibble) :
    execStRegs x (s.withInputs keys dt st) = answerWithInputs keys dt st (execStRegs x s) := by
  unfold execStRegs
  rcases storeBytes_cases s s.dataBase (s.regsUpTo x) with ⟨h, e⟩ | ⟨h0, h, e⟩ <;> rw [e]
  · exact congrArg (fun r => complete _ (Except.map _ r)) (storeBytes_fits h)
  · exact congrArg (fun r => complete _ (Except.map _ r)) (storeBytes_past h0 h)

end

/-- An answer with its keys and timers replaced is a next state with them replaced. -/
theorem exists_eq_next_withInputs {o o' : Answer} {t : State} {keys : Vector KeyState 16} {dt st : Byte} (ho : o = .next t)
    (ho' : o' = answerWithInputs keys dt st o) : ∃ dt' st', o' = .next (t.withInputs keys dt' st') :=
  ⟨dt, st, by rw [ho', ho]; rfl⟩

/-- Other keys and timers carry over from state to state under any instruction but the four that poll; the two timer loads
write one of them. -/
theorem exec_withInputs {i : Instr} {s t : State} (hi : i.op ∉ [Op.skp, .sknp, .ldVxK, .ldVxDt]) (h : exec i s = .next t)
    (keys : Vector KeyState 16) (dt st : Byte) :
    ∃ dt' st', exec i (s.withInputs keys dt st) = .next (t.withInputs keys dt' st') := by
  cases i with
  | skp | sknp | ldVxK | ldVxDt => exact absurd (by simp [Instr.op]) hi
  | ret => exact exists_eq_next_withInputs h (execRet_withInputs s keys dt st)
  | call nnn => exact exists_eq_next_withInputs h (execCall_withInputs s keys dt st nnn)
  | ldB x => exact exists_eq_next_withInputs h (execLdB_withInputs s keys dt st x)
  | stRegs x => exact exists_eq_next_withInputs h (execStRegs_withInputs s keys dt st x)
  | drw => exact exists_eq_next_withInputs h (complete_map_withInputs s keys dt st fun _ => rfl)
  | ldRegs =>
    refine exists_eq_next_withInputs h (complete_map_withInputs s keys dt st fun bs => ?_)
    rw [setRegsFrom_withInputs]
    rfl
  | seImm | sneImm | seReg | sneReg =>
    exact exists_eq_next_withInputs h (congrArg Host.Outcome.next (skipIf_withInputs s keys dt st _))
  | _ =>
    cases h
    exact ⟨_, _, rfl⟩

/-- Settles O53: the second state is the first with other keys and timers, and so is its next state. -/
theorem onlyPollingLearnsOfKeysAndTimers : Obligations.OnlyPollingLearnsOfKeysAndTimers := by
  rintro i s s' t hi ⟨hwf, -⟩ ⟨hwf', -⟩ hsame h
  rw [eq_withInputs hwf hwf' hsame]
  obtain ⟨dt', st', e⟩ := exec_withInputs hi h s'.keys s'.dt s'.st
  exact ⟨_, e, sameBut_withInputs t _ _ _⟩

end Sys2Proof.Machine
end

section
/-! Keys (spec/44_keys_timers.md R210 to R214, spec/60_exceptions.md R253 to R257): the key skips, the wait for a key by which
key is taken, and the transitions of R37. -/

namespace Sys2Proof.Machine

/-! Skips on a key (R211, R212). -/

theorem exec_skp_of_le {x : Nibble} {s : State} (h : (s.reg x).toNat ≤ 15) :
    exec (.skp x) s = .next (s.skipIf (s.key (BitVec.ofNat 4 (s.reg x).toNat) == .pressed)) := by
  simp only [exec, execSkp, keyNumbered_key (Nat.lt_succ_of_le h), Except.map, complete_ok]

theorem exec_sknp_of_le {x : Nibble} {s : State} (h : (s.reg x).toNat ≤ 15) :
    exec (.sknp x) s = .next (s.skipIf (s.key (BitVec.ofNat 4 (s.reg x).toNat) != .pressed)) := by
  simp only [exec, execSknp, keyNumbered_key (Nat.lt_succ_of_le h), Except.map, complete_ok]

/-- Settles O41: a byte up to 15 names a key and the skip is on its state, any other takes the fault. -/
theorem keySkips : Obligations.KeySkips := by
  refine fun x s => ⟨fun hkey => ⟨⟨_, exec_skp_of_le hkey, ?_, sameBut_skipIf s _⟩,
    ⟨_, exec_sknp_of_le hkey, ?_, sameBut_skipIf s _⟩⟩, fun hno => ⟨?_, ?_⟩⟩
  · simp only [skipIf_eq, beq_iff_eq]
  · simp only [skipIf_eq, bne_iff_ne, ne_eq, ite_not]
  · exact completes_tookFault_map (keyNumbered_none hno)
  · exact completes_tookFault_map (keyNumbered_none hno)

/-! The wait for a key (R214). -/

/-- The lowest `Pressed` key is the one that is pressed with none pressed below it. -/
theorem lowestPressed_eq_some {s : State} {k : Nibble} (hk : s.key k = .pressed)
    (hlow : ∀ j : Nibble, j.toNat < k.toNat → s.key j ≠ .pressed) : s.lowestPressed = some k := by
  cases h : s.lowestPressed with
  | none => exact absurd hk (lowestPressed_none.1 h k)
  | some m =>
    obtain ⟨hm, hmlow⟩ := lowestPressed_some h
    rcases Nat.lt_trichotomy m.toNat k.toNat with hlt | heq | hgt
    · exact absurd hm (hlow m hlt)
    · rw [BitVec.eq_of_toNat_eq heq]
    · exact absurd hk (hmlow k hgt)

theorem exec_ldVxK_of_some {x k : Nibble} {s : State} (h : s.lowestPressed = some k) :
    exec (.ldVxK x) s = .next ((s.setReg x (k.setWidth 8)).consume k) := by
  simp only [exec, execLdVxK, h]

theorem exec_ldVxK_of_none {x : Nibble} {s : State} (h : s.lowestPressed = none) :
    exec (.ldVxK x) s = .next (s.setPc (s.pc - 2)) := by
  simp only [exec, execLdVxK, h]

/-- Settles O42: the key taken is the lowest pressed one, and taking it is a register write and a `consume`. -/
theorem keyWaitTakesTheLowestPressedKey : Obligations.KeyWaitTakesTheLowestPressedKey := by
  intro x k s hk hlow
  have hconsume := sameBut_consume (s.setReg x (k.setWidth 8)) k
  have hreg := hconsume.reg_eq (by decide)
  refine ⟨_, exec_ldVxK_of_some (lowestPressed_eq_some hk hlow), ?_, ?_, fun j hj => ?_, fun y hy => ?_,
    (sameBut_setReg s x _).append hconsume⟩
  · rw [hreg, State.reg_setReg_same]
    exact BitVec.toNat_setWidth_of_le (by decide)
  · rw [key_consume, if_pos ⟨rfl, hk⟩]
  · rw [key_consume, if_neg fun h => hj h.1, State.key_setReg]
  · rw [hreg]
    exact regsSameBut_setReg s x _ y hy

/-- A step that answers is an action with the outcome it reports. -/
theorem act_step_of_step {s t : State} (h : step s = .next t) : act .step s = some (t, [.stepped (stepResult s t)]) := by
  simp only [act, h]

/-- Settles O43: the state retries, so its step answers the same state and reports the retry. -/
theorem keyWaitRetryChangesNothing : Obligations.KeyWaitRetryChangesNothing := by
  intro x s hrun hpc hd hkeys
  have hretries : s.retries = true := s.retries_iff.2 ⟨hpc, ⟨x, hd⟩, lowestPressed_none.2 hkeys⟩
  rw [act_step_of_step (step_eq_self_of_retries hrun hretries), (stepResult_eq_retry_iff s s).2 ⟨hrun, hretries⟩]

/-- Settles O44: taking the one pressed key leaves none, and its release and press make it the one pressed key again. -/
theorem onePressSatisfiesOneWait : Obligations.OnePressSatisfiesOneWait := by
  intro x x' k s t hk hothers hexec
  have hnotlow {u : State} (hu : ∀ j, j ≠ k → u.key j ≠ .pressed) (j : Nibble) (hj : j.toNat < k.toNat) : u.key j ≠ .pressed :=
    hu j fun e => Nat.ne_of_lt hj (congrArg BitVec.toNat e)
  obtain ⟨-, htk, htothers, -⟩ := (keyWaitTakesTheLowestPressedKey x k s hk (hnotlow hothers)).of_next hexec
  have hnone : ∀ j, j ≠ k → t.key j ≠ .pressed := fun j hj => htothers j hj ▸ hothers j hj
  refine ⟨exec_ldVxK_of_none (lowestPressed_none.2 fun j => ?_), ?_⟩
  · by_cases hj : j = k
    · rw [hj, htk]
      decide
    · exact hnone j hj
  · refine (keyWaitTakesTheLowestPressedKey x' k _ ?_ (hnotlow fun j hj => ?_)).mono
      fun u ⟨hreg, hkey, _⟩ => ⟨hreg, hkey⟩
    · simp [key_keyPress, key_keyRelease]
    · rw [key_keyPress, if_neg fun h => hj h.1, key_keyRelease, if_neg hj]
      exact hnone j hj

/-! The transitions (R37). -/

/-- An instruction changes a key only from `Pressed` to `Consumed`. -/
theorem exec_key_cases {i : Instr} {s t : State} (h : exec i s = .next t) (j : Nibble) :
    t.key j = s.key j ∨ s.key j = .pressed ∧ t.key j = .consumed := by
  cases i with
  | ldVxK x =>
    cases hlow : s.lowestPressed with
    | none =>
      cases (exec_ldVxK_of_none hlow).symm.trans h
      exact .inl rfl
    | some k =>
      cases (exec_ldVxK_of_some hlow).symm.trans h
      by_cases hj : j = k
      · obtain ⟨hk, -⟩ := lowestPressed_some hlow
        exact .inr ⟨hj ▸ hk, by rw [key_consume, if_pos ⟨hj, hk⟩]⟩
      · exact .inl (by rw [key_consume, if_neg fun h => hj h.1, State.key_setReg])
  | _ => exact .inl ((exec_sameBut h).key_eq (by simp [Instr.op, piecesWritten]) j)

/-- A step changes a key only from `Pressed` to `Consumed`. -/
theorem step_key_cases {s t : State} (h : step s = .next t) (j : Nibble) :
    t.key j = s.key j ∨ s.key j = .pressed ∧ t.key j = .consumed := by
  obtain ⟨-, ⟨-, rfl⟩ | ⟨-, rfl⟩ | ⟨-, i, -, hexec⟩⟩ := step_cases h
  · exact .inl rfl
  · exact .inl rfl
  · exact exec_key_cases hexec j

/-- Settles O45: of the actions only a step, a press and a release of the key itself change it, each in its own way. -/
theorem keyTransitionsAreTheListedOnes : Obligations.KeyTransitionsAreTheListedOnes := by
  intro a s t out j h hreset hchange
  obtain ⟨ha, hstep, -⟩ | ⟨-, -, rfl, -⟩ | ⟨k, ha, rfl, -⟩ | ⟨k, ha, rfl, -⟩ | ⟨-, rfl, -⟩ | ⟨font, rom, ha, -⟩ := act_cases h
  · obtain hsame | ⟨hpressed, hconsumed⟩ := step_key_cases hstep j
    · exact absurd hsame hchange
    · exact .inr (.inl ⟨hpressed, hconsumed, ha⟩)
  · exact absurd rfl hchange
  · rw [key_keyPress] at hchange ⊢
    split at hchange
    case isTrue hk =>
      obtain ⟨rfl, hreleased⟩ := hk
      exact .inl ⟨hreleased, if_pos ⟨rfl, hreleased⟩, ha⟩
    case isFalse => exact absurd rfl hchange
  · rw [key_keyRelease] at hchange ⊢
    split at hchange
    case isTrue hk => exact .inr (.inr ⟨if_pos hk, by rw [ha, hk]⟩)
    case isFalse => exact absurd rfl hchange
  · exact absurd rfl hchange
  · exact absurd ha (hreset font rom)

/-- Settles O46: a release is one key write, which needs nothing of the state. -/
theorem releaseAlwaysReleases : Obligations.ReleaseAlwaysReleases := by
  refine fun k s => ⟨keyRelease k s, rfl, ?_, fun j hj => ?_, sameBut_keyRelease k s⟩
  · rw [key_keyRelease, if_pos rfl]
  · rw [key_keyRelease, if_neg hj]

end Sys2Proof.Machine
end

section
/-! Timers and the environment (spec/44_keys_timers.md R217, spec/60_exceptions.md R251 to R263): one tick, ticks in a row, and
ticks that recur for ever. -/

namespace Sys2Proof.Machine

/-! The sound timer's load (R217). -/

/-- A step from a state that does not retry to one that runs on reports `Next`. -/
theorem stepResult_eq_next {s t : State} (hhalt : t.halt = none) (hretries : s.retries ≠ true) : stepResult s t = .next := by
  simp [stepResult, hhalt, hretries]

/-- Settles O48: the load writes `ST`, and its step neither faults nor retries and has no other output. -/
theorem soundTimerWrite : Obligations.SoundTimerWrite := by
  refine ⟨fun x s => ⟨_, rfl, rfl, sameBut_setSt s _⟩, fun x s hrun hpc hd => ?_⟩
  have hstep : step s = .next (s.advance.setSt (s.reg x)) := step_of_decode hrun hpc hd
  have hretries : s.retries ≠ true := fun h => by
    obtain ⟨-, ⟨y, hy⟩, -⟩ := s.retries_iff.1 h
    cases hd.symm.trans hy
  have hact := act_step_of_step hstep
  rw [stepResult_eq_next (t := s.advance.setSt (s.reg x)) hrun hretries] at hact
  exact ⟨_, hact, rfl⟩

/-! One tick (R251). -/

theorem tick_of_running {s : State} (hrun : s.halt = none) : tick s = some (s.tickTimers, s.beeps) := by
  simp only [tick, hrun]

theorem act_tick_of_running {s : State} (hrun : s.halt = none) :
    act .tick s = some (s.tickTimers, if s.beeps then [.beep] else []) := by
  simp only [act, tick_of_running hrun, Option.map_some]

theorem sameBut_tickTimers (s : State) : SameBut [.dt, .st] s s.tickTimers :=
  (sameBut_setDt s _).append (sameBut_setSt _ _)

/-- Settles O49: both timers count down, and the beep's condition is that `ST` was 1. -/
theorem tickCountsBothTimersDown : Obligations.TickCountsBothTimersDown := by
  refine fun s => ⟨fun hrun => ⟨_, _, tick_of_running hrun, toNat_countDown s.dt, toNat_countDown s.st, beeps_iff s,
    sameBut_tickTimers s⟩, fun hhalted => ?_⟩
  obtain ⟨r, hr⟩ := Option.ne_none_iff_exists'.1 hhalted
  exact tick_of_halted hr

/-! Ticks in a row. -/

/-- An execution from its first action and the execution of the others. -/
theorem run_cons_of_act {a : Action} {as : List Action} {s u t : State} {first rest : List Output}
    (hact : act a s = some (u, first)) (hrun : run as u = some (t, rest)) : run (a :: as) s = some (t, first ++ rest) := by
  simp only [run, hact, hrun, Option.map_some]

/-- Settles O51, by induction on the ticks: the first beeps when `ST` is 1, the others when it is one of 2 to `n + 1`. -/
theorem countdownReachesZeroWithOneBeep : Obligations.CountdownReachesZeroWithOneBeep := by
  intro n
  induction n with
  | zero =>
    refine fun s _ => ⟨s, [], rfl, rfl, rfl, ?_, SameBut.refl _ s⟩
    rw [List.count_nil, if_neg (by omega)]
  | succ n ih =>
    intro s hrun
    obtain ⟨t, out, ht, hdt, hst, hbeep, hframe⟩ := ih s.tickTimers hrun
    rw [dt_tickTimers, toNat_countDown] at hdt
    rw [st_tickTimers, toNat_countDown] at hst hbeep
    refine ⟨t, _, run_cons_of_act (act_tick_of_running hrun) ht, by omega, by omega, ?_, (sameBut_tickTimers s).trans hframe⟩
    obtain ⟨-, hfirst⟩ := act_tick (act_tick_of_running hrun)
    rw [List.count_append, hfirst, hbeep]
    simp only [beeps_iff]
    split_ifs <;> omega

/-! The environment's actions. -/

/-- Settles O52: each action by the state it answers. -/
theorem environmentTouchesOnlyItsOwn : Obligations.EnvironmentTouchesOnlyItsOwn := by
  refine fun s => ⟨fun t out h => ?_, fun k => ⟨keyPress k s, rfl, fun hk => ?_, fun hk => ?_, fun j hj => ?_,
    sameBut_keyPress k s⟩, s.fb, rfl, fun _ _ _ _ => rfl⟩
  · obtain ⟨rfl, -⟩ := act_tick h
    exact sameBut_tickTimers s
  · rw [key_keyPress, if_pos ⟨rfl, hk⟩]
  · rw [key_keyPress, if_neg fun h => hk h.2]
  · rw [key_keyPress, if_neg fun h => hj h.1]

/-! Ticks for ever (R256, R293). -/

section

variable {states : Nat → State} {actions : Nat → Action} {n : Nat}

/-- While nothing resets the machine and no step writes it, the delay timer changes by ticks alone, each counting it down. -/
theorem dt_succ_eq (hexec : IsExecution states actions) (hreset : ∀ m, n ≤ m → ∀ font rom, actions m ≠ .reset font rom)
    (hsteps : ∀ m, n ≤ m → actions m = .step → (states (m + 1)).dt = (states m).dt) {m : Nat} (hm : n ≤ m) :
    (states (m + 1)).dt = if actions m = .tick then countDown (states m).dt else (states m).dt := by
  obtain ⟨out, hact⟩ := hexec m
  obtain ⟨ha, -⟩ | ⟨ha, -, ht, -⟩ | ⟨k, ha, ht, -⟩ | ⟨k, ha, ht, -⟩ | ⟨ha, ht, -⟩ | ⟨font, rom, ha, -⟩ := act_cases hact
  · rw [hsteps m hm ha, if_neg (by simp [ha])]
  · rw [ht, if_pos ha, dt_tickTimers]
  · rw [ht, if_neg (by simp [ha]), (sameBut_keyPress k _).dt_eq (by decide)]
  · rw [ht, if_neg (by simp [ha]), (sameBut_keyRelease k _).dt_eq (by decide)]
  · rw [ht, if_neg (by simp [ha])]
  · exact absurd ha (hreset m hm font rom)

variable (hdt : ∀ m, n ≤ m → (states (m + 1)).dt = if actions m = .tick then countDown (states m).dt else (states m).dt)

include hdt

/-- A delay timer that only ticks change never rises. -/
theorem dt_le_of_le {m k : Nat} (hm : n ≤ m) (hk : m ≤ k) : (states k).dt.toNat ≤ (states m).dt.toNat := by
  induction k, hk using Nat.le_induction with
  | base => exact Nat.le_refl _
  | succ k hk ih =>
    refine Nat.le_trans ?_ ih
    rw [hdt k (Nat.le_trans hm hk)]
    split
    · rw [toNat_countDown]
      exact Nat.sub_le _ _
    · exact Nat.le_refl _

/-- With ticks for ever it reaches 0, by induction on a bound of its value: some later tick lowers it. -/
theorem exists_dt_eq_zero (hticks : TakenForEver actions .tick) (d : Nat) {m : Nat} (hm : n ≤ m)
    (hd : (states m).dt.toNat ≤ d) : ∃ k, n ≤ k ∧ (states k).dt.toNat = 0 := by
  induction d generalizing m with
  | zero => exact ⟨m, hm, Nat.le_zero.1 hd⟩
  | succ d ih =>
    obtain ⟨k, hk, htick⟩ := hticks m
    have hle := dt_le_of_le hdt hm hk
    refine ih (m := k + 1) (by omega) ?_
    rw [hdt k (by omega), if_pos htick, toNat_countDown]
    omega

end

/-- Settles O59: fairness owes ticks for ever, they run the timer out, and from 0 it cannot rise. -/
theorem fairTicksRunTheDelayTimerOut : Obligations.FairTicksRunTheDelayTimerOut := by
  intro states actions n hexec hfair hruns hreset hsteps
  obtain ⟨-, hticks⟩ := hfair ⟨n, hruns⟩
  have hdt := fun m hm => dt_succ_eq hexec hreset hsteps (m := m) hm
  obtain ⟨k, hk, hzero⟩ := exists_dt_eq_zero hdt hticks _ (Nat.le_refl n) (Nat.le_refl _)
  exact ⟨k, hk, fun m hm => Nat.le_zero.1 (hzero ▸ dt_le_of_le hdt hk hm)⟩

end Sys2Proof.Machine
end
